-- ==== Sys2Proof/Word.lean ====
section
/-! DEFINITION. The two widths of the block: the byte of memory, opcodes and operands, and the 32-bit word of the
registers (spec R8, R9). -/

namespace Sys2Proof

/-- A byte, value 0 to 255 (R9). -/
abbrev Byte := BitVec 8

/-- A word, the unsigned 32-bit value of a register (R9, R20). -/
abbrev Word := BitVec 32

end Sys2Proof
end

