-- ==== Sys2Proof/Config.lean ====
section
/-! DEFINITION. The parameters of R8. They are fixed by the hardware; no optional feature exists, and the spec leaves no
result of an instruction undefined, so no free value stands here. The host's answers at the output sink are inputs, not
configuration (spec/92 D11), and stand in State. -/

namespace Sys2Proof

/-- `MEMORY_SIZE`, 4096 bytes (R8). -/
abbrev Config.memorySize : Nat := 4096

/-- `NREG`, 16 registers (R8, R20). -/
abbrev Config.numRegs : Nat := 16

/-- The fault-latch sentinel of IP, equal to `MEMORY_SIZE` (R8, R127). -/
abbrev Config.sentinel : Word := 4096

end Sys2Proof
end

