-- ==== Sys2Proof/Syntax.lean ====
section
/-! DEFINITION. The eight opcodes (R67) and the instruction as the step's operand latch holds it (R29): the opcode with its
operand bytes, raw. Register fields stay whole bytes, since the decoder does not check them (R65); the two immediate
bytes of `loadimm` stay as they stand (R66). -/

namespace Sys2Proof

/-- The eight defined opcodes, which are also the eight handlers H1 to H8 (R30, R67). -/
inductive Opcode where
  | moveIf | store | load | loadimm | sub | out | exit | outNumber
  deriving DecidableEq, Repr

/-- One constructor per row of spec/opcode_table.json, operands in encoding order (R63, R64). -/
inductive Instr where
  /-- `move_if rd, rs1, rs2` (R90): destination, source, condition register. -/
  | moveIf (rd rs1 rs2 : Byte)
  /-- `store rs1, rs2` (R100): address register, value register. -/
  | store (rs1 rs2 : Byte)
  /-- `load rs1, rs2` (R101): destination register, address register. -/
  | load (rs1 rs2 : Byte)
  /-- `loadimm rd, lo, hi` (R91): destination register, low and high immediate byte. -/
  | loadimm (rd lo hi : Byte)
  /-- `sub rd, rs1, rs2` (R92): destination, minuend, subtrahend register. -/
  | sub (rd rs1 rs2 : Byte)
  /-- `out rs1` (R110): source register. -/
  | out (rs1 : Byte)
  /-- `exit` (R112). -/
  | exit
  /-- `out_number rs1` (R111): source register. -/
  | outNumber (rs1 : Byte)
  deriving DecidableEq, Repr

end Sys2Proof
end

