-- ==== Sys2Proof/Decode.lean ====
section
/-! DEFINITION. The opcode map and lengths (R62, R67), the decoder over the bytes that stand from IP on (R60 to R69, R74 to
R76) and the encoder (R64). The decoder is total and refuses by name. -/

namespace Sys2Proof

/-- Why bytes are no instruction. -/
inductive DecodeError where
  /-- There is no opcode byte: the fetch is outside memory (R73). -/
  | noOpcode
  /-- The opcode byte is 0x00 or 0x09 to 0xFF (R68, R74). -/
  | illegalOpcode (op : Byte)
  /-- The opcode is defined, but the instruction does not lie inside the bytes at hand (R75). -/
  | truncated (op : Opcode)
  deriving DecidableEq, Repr

/-- The opcode map (R67); every other byte is illegal (R68). -/
def Opcode.ofByte? (b : Byte) : Option Opcode :=
  if b = 0x01 then some .moveIf
  else if b = 0x02 then some .store
  else if b = 0x03 then some .load
  else if b = 0x04 then some .loadimm
  else if b = 0x05 then some .sub
  else if b = 0x06 then some .out
  else if b = 0x07 then some .exit
  else if b = 0x08 then some .outNumber
  else none

/-- The opcode byte of an opcode (R67). -/
def Opcode.toByte : Opcode → Byte
  | .moveIf => 0x01
  | .store => 0x02
  | .load => 0x03
  | .loadimm => 0x04
  | .sub => 0x05
  | .out => 0x06
  | .exit => 0x07
  | .outNumber => 0x08

/-- The length in bytes, opcode included, set by the opcode alone (R61, R62). -/
def Opcode.length : Opcode → Nat
  | .moveIf => 4
  | .store => 3
  | .load => 3
  | .loadimm => 4
  | .sub => 4
  | .out => 2
  | .exit => 1
  | .outNumber => 2

/-- The opcode of an instruction. -/
def Instr.opcode : Instr → Opcode
  | .moveIf _ _ _ => .moveIf
  | .store _ _ => .store
  | .load _ _ => .load
  | .loadimm _ _ _ => .loadimm
  | .sub _ _ _ => .sub
  | .out _ => .out
  | .exit => .exit
  | .outNumber _ => .outNumber

/-- The length of an instruction (R62). -/
def Instr.length (i : Instr) : Nat := i.opcode.length

/-- The number of the handler the dispatch selects: it equals the opcode value (R30, D20). -/
def Instr.handler (i : Instr) : Nat := i.opcode.toByte.toNat

/-- The operand bytes after the opcode: the k-th listed operand is the byte at offset k (R63, R64).
UNVERIFIED (log 9): the order of the operand bytes is the spec's own decision D4. Unsafe. -/
def decodeOperands : Opcode → List Byte → Except DecodeError (Instr × List Byte)
  | .moveIf, rd :: rs1 :: rs2 :: rest => .ok (.moveIf rd rs1 rs2, rest)
  | .store, rs1 :: rs2 :: rest => .ok (.store rs1 rs2, rest)
  | .load, rs1 :: rs2 :: rest => .ok (.load rs1 rs2, rest)
  | .loadimm, rd :: lo :: hi :: rest => .ok (.loadimm rd lo hi, rest)
  | .sub, rd :: rs1 :: rs2 :: rest => .ok (.sub rd rs1 rs2, rest)
  | .out, rs1 :: rest => .ok (.out rs1, rest)
  | .exit, rest => .ok (.exit, rest)
  | .outNumber, rs1 :: rest => .ok (.outNumber rs1, rest)
  | op, _ => .error (.truncated op)

/-- Decode the instruction at the head of the bytes and return what follows it. The opcode is checked before the length
(R74 before R75), and the length before any operand is used (R75, C7). -/
def decode : List Byte → Except DecodeError (Instr × List Byte)
  | [] => .error .noOpcode
  | op :: bytes =>
    match Opcode.ofByte? op with
    | none => .error (.illegalOpcode op)
    | some o => decodeOperands o bytes

/-- The bytes of an instruction, lowest address first (R63, R64). -/
def encode : Instr → List Byte
  | .moveIf rd rs1 rs2 => [0x01, rd, rs1, rs2]
  | .store rs1 rs2 => [0x02, rs1, rs2]
  | .load rs1 rs2 => [0x03, rs1, rs2]
  | .loadimm rd lo hi => [0x04, rd, lo, hi]
  | .sub rd rs1 rs2 => [0x05, rd, rs1, rs2]
  | .out rs1 => [0x06, rs1]
  | .exit => [0x07]
  | .outNumber rs1 => [0x08, rs1]

/-! The pseudo-instructions of R71 (the spec's notation, D16): each is exactly its expansion, so none is a constructor. -/

/-- `li rd, #imm`: `loadimm rd, imm[7:0], imm[15:8]`. -/
def pseudoLi (rd : Byte) (imm : BitVec 16) : Instr := .loadimm rd (imm.extractLsb' 0 8) (imm.extractLsb' 8 8)

/-- `jmp #t`, for a target up to 0x7FFF: `loadimm r0, t[7:0], t[15:8]`. -/
def pseudoJmp (target : BitVec 16) : Instr := pseudoLi 0 target

/-- `jnz rt, rc`: `move_if r0, rt, rc`. -/
def pseudoJnz (rt rc : Byte) : Instr := .moveIf 0 rt rc

/-- `clr rd`: `sub rd, rd, rd`. -/
def pseudoClr (rd : Byte) : Instr := .sub rd rd rd

/-- `getip rd`: `move_if rd, r0, r0`. -/
def pseudoGetip (rd : Byte) : Instr := .moveIf rd 0 0

/-- `nop`: `move_if r0, r0, r0`. -/
def pseudoNop : Instr := .moveIf 0 0 0

/-- `halt`: `exit`. -/
def pseudoHalt : Instr := .exit

/-- The longest instruction, in bytes (R62). -/
abbrev maxLength : Nat := 4

/-- The bytes of a number that holds an instruction as spec/opcode_table.json numbers its bits (R64): byte k is bits
8k+7 to 8k. Bits from `nbits` on are 0, and the list has the length of the longest instruction. -/
def tableBytes (nbits w : Nat) : List Byte :=
  (List.range maxLength).map fun k => BitVec.ofNat 8 (w % 2 ^ nbits / 2 ^ (8 * k))

/-- The instruction the decoder reads from a word numbered as spec/opcode_table.json numbers its bits. -/
def decodeTableWord (nbits w : Nat) : Option Instr :=
  match decode (tableBytes nbits w) with
  | .ok (i, _) => some i
  | .error _ => none

end Sys2Proof
end

