-- ==== Sys2Proof/Machine/State.lean ====
section
/-! DEFINITION. Everything the spec gives the machine (R20 to R34), as plain data, the state right after reset, and the
reasons a step may stop. The operand latch and the handler select of R29 and R30 live inside one step, as the value of
type `Instr` that fetch hands to `exec`, and are no fields (log 6). -/

namespace Sys2Proof.Machine

/-- The four error kinds (R120), in the order of their codes. -/
inductive ErrorKind where
  /-- An access outside `[0, 4096)` (R121). -/
  | memoryOverflow
  /-- A register index above 15 (R122). -/
  | registerOverflow
  /-- An opcode byte that matches no instruction (R123). -/
  | instructionError
  /-- The output sink rejected a write (R124). -/
  | outputError
  deriving DecidableEq, Repr

/-- `RUN` with its field `ERR` (R28): only FAULTED has an error kind, so the pairs R28 calls impossible do not exist.
DESIGN CHOICE (log 7): one inductive for the two; the codes are `State.runCode` and `State.errCode`. Safe. -/
inductive RunState where
  /-- May step; `RUN` 0, `ERR` 0. -/
  | running
  /-- `exit` executed, terminal, successful; `RUN` 1, `ERR` 0. -/
  | halted
  /-- An error was raised by a step, terminal, unsuccessful; `RUN` 2, `ERR` the kind's code. -/
  | faulted (kind : ErrorKind)
  deriving DecidableEq, Repr

/-- What the sink answers to one offer (R137, D11). -/
inductive SinkAnswer where
  /-- All offered codes are taken. -/
  | accept
  /-- The write is rejected; the sink keeps the first `kept` of the offered codes, all of them if there are fewer. -/
  | reject (kept : Nat)
  deriving DecidableEq, Repr

/-- The host's draws at the sink (R137, R138, D11): its answers to the next offers, oldest first, and its answer to every
offer after those. DESIGN CHOICE (log 2): the sink parameter of `step` is held in State as data. Safe. -/
structure Sink where
  answers : List SinkAnswer
  rest : SinkAnswer
  deriving DecidableEq, Repr

/-- Memory contents: pairs of an address and the byte there, addresses strictly rising, none of them equal to what an
unlisted address reads as (`Memory.wf`). -/
abbrev Memory := List Host.Cell

/-- What an address that is not listed reads as: memory beyond the image is zero at construction (R34, R50). -/
def Memory.unlisted : Byte := 0

/-- The machine's state. -/
structure State where
  /-- The register file, 16 words; register 0 is IP (R20, R21). -/
  regs : Vector Word Config.numRegs
  /-- The 4096 bytes of memory, code and data (R27, R40). -/
  mem : Memory
  /-- `RUN` and `ERR` (R28). -/
  run : RunState
  /-- `OUT`, the byte codes the sink holds, oldest first (R31). -/
  out : List Byte
  /-- The model's own field: the host's draws at the output sink (R137, R138). -/
  sink : Sink
  deriving DecidableEq, Repr

/-- Right after construction from the empty image (R34, R140, R142). The sink's draws are no state of the block;
DESIGN CHOICE (log 3): after reset they accept every write. Unsafe. -/
def State.reset : State where
  regs := Vector.replicate Config.numRegs 0
  mem := []
  run := .running
  out := []
  sink := { answers := [], rest := .accept }

/-- Reasons a step stops with a fault: NONE. An error of this hardware is an entry the spec describes (R13, R126) and so a
next state with `run = faulted kind`; no step raises anything else. The type is closed and empty, which is safe
(DEDUCED, log 1). -/
inductive Fault : Type
  deriving DecidableEq, Repr

/-- Reasons a step gives no meaning. -/
inductive Refusal where
  /-- Raised only by an arm of `exec` whose instruction has no meaning yet; no arm is such an arm. Safe. -/
  | notModelled (mnemonic : String)
  deriving DecidableEq, Repr

/-- The outcome of a step of this machine. -/
abbrev Outcome := Host.Outcome State Fault Refusal

end Sys2Proof.Machine
end

