-- ==== Sys2Proof/Machine/Ops.lean ====
section
/-! DEFINITION. The named operations every meaning goes through: the checked primitives of R12 over registers (R22, R23) and
memory (R41 to R46), the offer to the output sink (R137), and `raise`, the one entry of every error (R13, R126). There is
no return from an error (R129). -/

namespace Sys2Proof.Machine

/-! Registers -/

/-- `x[r]` of a valid index (R11, R20). -/
def State.reg (s : State) (r : Fin Config.numRegs) : Word := s.regs[r.val]

/-- `x[r] <- v` of a valid index: changes exactly this register (R23). -/
def State.setReg (s : State) (r : Fin Config.numRegs) (v : Word) : State :=
  { s with regs := s.regs.set r.val v }

/-- IP, which is register 0 (R21, R25). -/
def State.ip (s : State) : Word := s.reg 0

/-- `ip <- v`, which is `x[0] <- v` (R11). -/
def State.setIp (s : State) (v : Word) : State := s.setReg 0 v

/-- `RegRead(i)` (R12): an index above 15 is an error, never reduced modulo 16 (R22). -/
def regRead (i : Nat) (s : State) : Except ErrorKind Word :=
  if h : i < Config.numRegs then .ok (s.reg ⟨i, h⟩) else .error .registerOverflow

/-- `RegWrite(i, v)` (R12, R22, R23). -/
def regWrite (i : Nat) (v : Word) (s : State) : Except ErrorKind State :=
  if h : i < Config.numRegs then .ok (s.setReg ⟨i, h⟩ v) else .error .registerOverflow

/-! Run state -/

/-- The code of an error kind (R120; the numbers are D3's). -/
def ErrorKind.code : ErrorKind → BitVec 3
  | .memoryOverflow => 1
  | .registerOverflow => 2
  | .instructionError => 3
  | .outputError => 4

/-- The value of `RUN` (R28). -/
def State.runCode (s : State) : BitVec 2 :=
  match s.run with
  | .running => 0
  | .halted => 1
  | .faulted _ => 2

/-- The value of `ERR` (R28): 0 is NONE. -/
def State.errCode (s : State) : BitVec 3 :=
  match s.run with
  | .running => 0
  | .halted => 0
  | .faulted e => e.code

/-- What a step answers to the host (R82, R128). -/
inductive StepResult where
  /-- CONTINUE, the source's `Ok(false)`. -/
  | cont
  /-- HALTED, the source's `Ok(true)`. -/
  | halted
  /-- `Err(kind)`. -/
  | err (kind : ErrorKind)
  deriving DecidableEq, Repr

/-- The answer of the step that left this state; a terminal state answers the latched outcome again (R82, R126, R128). -/
def State.result (s : State) : StepResult :=
  match s.run with
  | .running => .cont
  | .halted => .halted
  | .faulted e => .err e

/-- Error entry (R13, R126): `RUN <- FAULTED`, `ERR <- E`. What the step did before stays, and nothing else changes.
DEDUCED (log 1): the `Err(E)` returned to the host is read from the state by `State.result`. Safe. -/
def raise (e : ErrorKind) (s : State) : State := { s with run := .faulted e }

/-- One checked primitive of a handler: go on with its value, or raise in the state reached so far (R13, R80). -/
def check {α : Type} (r : Except ErrorKind α) (s : State) (next : α → Outcome) : Outcome :=
  match r with
  | .ok a => next a
  | .error e => .next (raise e s)

/-! Memory -/

/-- The byte at an address; an address that is not listed reads as `Memory.unlisted`. -/
def Memory.read : Memory → Nat → Byte
  | [], _ => Memory.unlisted
  | (c, v) :: m, a => if c = a then v else Memory.read m a

/-- Put one byte, keeping the canonical form: the entry is left out where the byte is what an unlisted address reads as. -/
def Memory.write : Memory → Nat → Byte → Memory
  | [], a, b => if b = Memory.unlisted then [] else [(a, b)]
  | (c, v) :: m, a, b =>
    if a < c then (if b = Memory.unlisted then (c, v) :: m else (a, b) :: (c, v) :: m)
    else if a = c then (if b = Memory.unlisted then m else (a, b) :: m)
    else (c, v) :: Memory.write m a b

/-- Put bytes at consecutive addresses, lowest first. -/
def Memory.writeBytes : Memory → Nat → List Byte → Memory
  | m, _, [] => m
  | m, a, b :: bs => Memory.writeBytes (Memory.write m a b) (a + 1) bs

/-- The canonical form from a lowest allowed address on. -/
def Memory.wfFrom : Nat → Memory → Bool
  | _, [] => true
  | low, (a, b) :: m =>
    decide (low ≤ a) && decide (a < Config.memorySize) && decide (b ≠ Memory.unlisted) && Memory.wfFrom (a + 1) m

/-- The canonical form: addresses strictly rising and below 4096, no entry that an unlisted address would read as. -/
def Memory.wf (m : Memory) : Bool := Memory.wfFrom 0 m

/-- `M[a]` (R11). Callers check the range first. -/
def State.byte (s : State) (a : Nat) : Byte := s.mem.read a

/-- An access of `n` bytes at `a` is in range (R41), on exact integers.
UNVERIFIED (log 10): the width of this arithmetic is the spec's own decision D5. Unsafe. -/
def inRange (a n : Nat) : Bool := decide (a + n - 1 < Config.memorySize)

/-- The `n` bytes from `a` on, lowest address first. -/
def State.bytes (s : State) (a n : Nat) : List Byte := (List.range n).map fun k => s.byte (a + k)

/-- Byte `k` of a word, byte 0 the least significant: `v[8k+7:8k]` (R44, R46). -/
def wordByte (v : Word) (k : Nat) : Byte := v.extractLsb' (8 * k) 8

/-- The four bytes of a word, little-endian (R44, R46). -/
def wordBytes (v : Word) : List Byte := [wordByte v 0, wordByte v 1, wordByte v 2, wordByte v 3]

/-- `b0 | b1<<8 | b2<<16 | b3<<24` (R43, R46). -/
def wordOfBytes (b0 b1 b2 b3 : Byte) : Word :=
  b0.setWidth 32 ||| b1.setWidth 32 <<< 8 ||| b2.setWidth 32 <<< 16 ||| b3.setWidth 32 <<< 24

/-- `load_word(a)`, `MemRead(a, 4)` (R12, R43), at any alignment (R45). -/
def loadWord (a : Word) (s : State) : Except ErrorKind Word :=
  if inRange a.toNat 4 then
    .ok (wordOfBytes (s.byte a.toNat) (s.byte (a.toNat + 1)) (s.byte (a.toNat + 2)) (s.byte (a.toNat + 3)))
  else .error .memoryOverflow

/-- `store_word(a, v)`, `MemWrite(a, 4, v)` (R12, R44), at any alignment (R45).
UNVERIFIED (log 12): that a failed store writes no byte is the spec's own decision D9. Unsafe. -/
def storeWord (a v : Word) (s : State) : Except ErrorKind State :=
  if inRange a.toNat 4 then .ok { s with mem := s.mem.writeBytes a.toNat (wordBytes v) }
  else .error .memoryOverflow

/-! Output sink -/

/-- The sink's answer to the next offer. -/
def Sink.next (k : Sink) : SinkAnswer := k.answers.headD k.rest

/-- The draws left after one offer. -/
def Sink.advance (k : Sink) : Sink := { k with answers := k.answers.tail }

/-- `Emit(codes)` (R12, R137): one offer. On accept the codes are appended to `OUT`; on reject a prefix of them, the
host's draw, and the error is raised. UNVERIFIED (log 14): the prefix is the spec's own decision D11. Safe. -/
def emit (codes : List Byte) (s : State) : State :=
  match s.sink.next with
  | .accept => { s with out := s.out ++ codes, sink := s.sink.advance }
  | .reject kept =>
    raise .outputError { s with out := s.out ++ codes.take kept, sink := s.sink.advance }

end Sys2Proof.Machine
end

