-- ==== Sys2Proof/Machine/Operands.lean ====
section
/-! DEFINITION. The operand forms: a register field read or written through the index guard (R22, R65), the address in a
register (R102), the sign-extended immediate of `loadimm` (R66), and the numbers the handlers compute with (R10): exact
integers, narrowed at the end, the signed reading of a word, and its decimal text (R111). -/

namespace Sys2Proof.Machine

/-- The value of a register field, a whole byte checked when it is used (R24, R65). -/
def readField (f : Byte) (s : State) : Except ErrorKind Word := regRead f.toNat s

/-- Write the register a field names (R24, R65); a write of register 0 is a jump (R81). -/
def writeField (f : Byte) (v : Word) (s : State) : Except ErrorKind State := regWrite f.toNat v s

/-- The effective address: the field's register, unchanged (R102). -/
def readAddress (f : Byte) (s : State) : Except ErrorKind Word := readField f s

/-- `imm16 = lo | hi << 8` (R66). -/
def imm16 (lo hi : Byte) : BitVec 16 := lo.setWidth 16 ||| hi.setWidth 16 <<< 8

/-- `sext_32(imm16, 16)` (R10, R66). -/
def immediate (lo hi : Byte) : Word := (imm16 lo hi).signExtend 32

/-- `wrap32(z) = z mod 2^32` (R10). -/
def wrap32 (z : Int) : Word := BitVec.ofInt 32 z

/-- `wrap32(a - b)`, the difference taken exactly (R92, R93). -/
def subtract (a b : Word) : Word := wrap32 ((a.toNat : Int) - (b.toNat : Int))

/-- `signed32(v)` (R10). -/
def signed32 (v : Word) : Int :=
  if v.toNat < 2 ^ 31 then (v.toNat : Int) else (v.toNat : Int) - 2 ^ 32

/-- The low 8 bits of a register, the code `out` offers (R110).
UNVERIFIED (log 13): that the sink gets one 8-bit code is the spec's own decision D10. Safe. -/
def lowCode (v : Word) : Byte := v.setWidth 8

/-- The ASCII code of a decimal digit, `'0'` (0x30) to `'9'` (0x39) (R111). -/
def digitCode (d : Nat) : Byte := BitVec.ofNat 8 (0x30 + d)

/-- The decimal digits of `n`, most significant first, at most `fuel` of them. -/
def digitsWithin : Nat → Nat → List Byte
  | 0, _ => []
  | fuel + 1, n => if n < 10 then [digitCode n] else digitsWithin fuel (n / 10) ++ [digitCode (n % 10)]

/-- The decimal digits of `n`, most significant first, no leading zero, `0` for zero (R111). -/
def digits (n : Nat) : List Byte := digitsWithin (n + 1) n

/-- `dec(n)` (R111): the digits, after `-` (0x2D) where `n < 0`; no plus sign, padding or separator.
UNVERIFIED (log 15): this form is the spec's own decision D12. Unsafe. -/
def dec (n : Int) : List Byte := if n < 0 then 0x2D :: digits n.natAbs else digits n.natAbs

end Sys2Proof.Machine
end

