-- ==== Sys2Proof/Machine/MemoryOps.lean ====
section
/-! DEFINITION. The memory operations of spec/41: `store` and `load`, register indirect (R102), after the IP advance (R77,
R79). The operand roles are those of the table rows (C4). UNVERIFIED (log 8): the order of the checks is the spec's own
decision D8; it decides the error kind of a `load` with a bad address and a bad destination. Unsafe. -/

namespace Sys2Proof.Machine

/-- `store rs1, rs2` (R100): `rs1` holds the address, `rs2` the value. -/
def execStore (rs1 rs2 : Byte) (s : State) : Outcome :=
  check (readAddress rs1 s) s fun a =>
    check (readField rs2 s) s fun v =>
      check (storeWord a v s) s fun t => .next t

/-- `load rs1, rs2` (R101): `rs1` is the destination, `rs2` holds the address; the memory access comes before the check
of the destination. -/
def execLoad (rs1 rs2 : Byte) (s : State) : Outcome :=
  check (readAddress rs2 s) s fun a =>
    check (loadWord a s) s fun v =>
      check (writeField rs1 v s) s fun t => .next t

end Sys2Proof.Machine
end

