-- ==== Sys2Proof/Machine/OutputControl.lean ====
section
/-! DEFINITION. Output and control of spec/42: `out`, `out_number`, `exit`, after the IP advance (R77, R79). -/

namespace Sys2Proof.Machine

/-- `out rs1` (R110): one offer of one code, the low 8 bits of the register. -/
def execOut (rs1 : Byte) (s : State) : Outcome :=
  check (readField rs1 s) s fun v => .next (emit [lowCode v] s)

/-- `exit` (R112): `RUN <- HALTED`, and nothing else. -/
def execExit (s : State) : Outcome := .next { s with run := .halted }

/-- `out_number rs1` (R111): one offer of the whole decimal text of the register read as signed. -/
def execOutNumber (rs1 : Byte) (s : State) : Outcome :=
  check (readField rs1 s) s fun v => .next (emit (dec (signed32 v)) s)

end Sys2Proof.Machine
end

