-- ==== Sys2Proof/Machine/Flags.lean ====
section
/-! DEFINITION. Conditions. The block has no flags, no condition codes and no status word, and no instruction writes any
(R14, R32); `sub` sets no carry or borrow (R92). The one condition is the test `move_if` makes on a register value. -/

namespace Sys2Proof.Machine

/-- The condition of `move_if`: not zero, as an unsigned word (R90, R93). -/
def nonZero (v : Word) : Bool := decide (v ≠ 0)

end Sys2Proof.Machine
end

