-- ==== Sys2Proof/Machine/RegisterOps.lean ====
section
/-! DEFINITION. The register operations of spec/40: `move_if`, `loadimm`, `sub`. Each runs in phase X, after the IP advance
(R77, R79), so register 0 holds the address of the next instruction. The checks stand in the order of the pseudocode.
UNVERIFIED (log 8): that order, and that an unused operand is not checked, are the spec's own decision D8. Unsafe. -/

namespace Sys2Proof.Machine

/-- `move_if rd, rs1, rs2` (R90): a false condition changes nothing and checks neither `rd` nor `rs1`. -/
def execMoveIf (rd rs1 rs2 : Byte) (s : State) : Outcome :=
  check (readField rs2 s) s fun c =>
    if nonZero c then
      check (readField rs1 s) s fun v =>
        check (writeField rd v s) s fun t => .next t
    else .next s

/-- `loadimm rd, lo, hi` (R91). -/
def execLoadimm (rd lo hi : Byte) (s : State) : Outcome :=
  check (writeField rd (immediate lo hi) s) s fun t => .next t

/-- `sub rd, rs1, rs2` (R92): both operands are read before the write. -/
def execSub (rd rs1 rs2 : Byte) (s : State) : Outcome :=
  check (readField rs1 s) s fun a =>
    check (readField rs2 s) s fun b =>
      check (writeField rd (subtract a b) s) s fun t => .next t

end Sys2Proof.Machine
end

