-- ==== Sys2Proof/Machine/Dispatch.lean ====
section
/-! DEFINITION. The opcode_dispatch_fsm (R79): one handler per instruction, run on the latched operand bytes in the state
after the IP advance. -/

namespace Sys2Proof.Machine

/-- Phase X: run the handler of the instruction (R30, R79). -/
def exec (i : Instr) (s : State) : Host.Outcome State Fault Refusal :=
  match i with
  | .moveIf rd rs1 rs2 => Sys2Proof.Machine.execMoveIf rd rs1 rs2 s
  | .store rs1 rs2 => Sys2Proof.Machine.execStore rs1 rs2 s
  | .load rs1 rs2 => Sys2Proof.Machine.execLoad rs1 rs2 s
  | .loadimm rd lo hi => Sys2Proof.Machine.execLoadimm rd lo hi s
  | .sub rd rs1 rs2 => Sys2Proof.Machine.execSub rd rs1 rs2 s
  | .out rs1 => Sys2Proof.Machine.execOut rs1 s
  | .exit => Sys2Proof.Machine.execExit s
  | .outNumber rs1 => Sys2Proof.Machine.execOutNumber rs1 s

end Sys2Proof.Machine
end

