-- ==== Sys2Proof/Machine/Fetch.lean ====
section
/-! DEFINITION. The instruction_fetch_decoder: phases F0 to F4 of a step (R72 to R78), what a step request does in a terminal
state (R128), and the placing of an instruction's bytes where the next fetch reads them. -/

namespace Sys2Proof.Machine

/-- The bytes a fetch may read: those from IP on that lie inside memory, at most one longest instruction. None at an IP of
4096 or more (R73). -/
def State.fetchWindow (s : State) : List Byte :=
  s.bytes s.ip.toNat (min maxLength (Config.memorySize - s.ip.toNat))

/-- Phase F4, the IP advance (R77). -/
def advanceIp (i : Instr) (s : State) : State := s.setIp (s.ip + BitVec.ofNat 32 i.length)

/-- A fetch fault of F0 or F2 pins IP at the sentinel (R73, R75, R127).
UNVERIFIED (log 11): that an IP above 4096 also becomes 4096 is the spec's own decision D6. Unsafe. -/
def pinFault (s : State) : State := raise .memoryOverflow (s.setIp Config.sentinel)

/-- What each refusal of the decoder does to the state: F0 (R73), F1 (R74), F2 (R75). -/
def fetchFault : DecodeError → State → State
  | .noOpcode, s => pinFault s
  | .illegalOpcode _, s => raise .instructionError (s.setIp (s.ip + 1))
  | .truncated _, s => pinFault s

/-- What phases F0 to F4 come to: an instruction with the state after the IP advance, or a raise. -/
inductive Fetched where
  | instr (i : Instr) (s : State)
  | raised (s : State)
  deriving DecidableEq, Repr

/-- Phases F0 to F4 (R72 to R78). The decoder finds no opcode exactly when `ip ≥ 4096` (F0), an opcode outside 1 to 8
(F1), and fewer bytes than the length exactly when `ip + L - 1 ≥ 4096` (F2). -/
def fetch (s : State) : Fetched :=
  match decode s.fetchWindow with
  | .ok (i, _) => .instr i (advanceIp i s)
  | .error d => .raised (fetchFault d s)

/-- A step request in a terminal state runs no phase and changes nothing (R128).
UNVERIFIED (log 4): that terminal states absorb is the spec's own decision D7. Unsafe. -/
def terminalStep (s : State) : Outcome := .next s

/-- The state with bytes placed from IP on, as far as they lie inside memory. -/
def placeAtIp (s : State) (bytes : List Byte) : State :=
  { s with mem := s.mem.writeBytes s.ip.toNat (bytes.take (Config.memorySize - s.ip.toNat)) }

end Sys2Proof.Machine
end

