-- ==== Sys2Proof/Machine/Step.lean ====
section
/-! DEFINITION. One step (R72): fetch, decode, IP advance, then the handler; nothing in a terminal state (R128). -/

namespace Sys2Proof.Machine

/-- One `step` request of the host (R72, R128, R134). -/
def step (s : State) : Host.Outcome State Fault Refusal :=
  match s.run with
  | .running =>
    match fetch s with
    | .instr i t => exec i t
    | .raised t => .next t
  | .halted => terminalStep s
  | .faulted _ => terminalStep s

/-- The state with the instruction of a table word stored where the next step fetches (log 5): its bytes from IP on, the
bytes above `nbits` zero up to the longest instruction. -/
def State.withFetchWord (s : State) (nbits w : Nat) : State := placeAtIp s (tableBytes nbits w)

end Sys2Proof.Machine
end

