-- ==== Sys2Proof/Machine/HostPort.lean ====
section
/-! DEFINITION. The host interface of R134 to R136, beside `step`: construction, `run`, and the accessors the host calls
between steps. An accessor's error is the result of that call alone and changes no state, since no state is returned with
it. UNVERIFIED (log 16): which operations the host has is the spec's own decision D2, and that their errors do not fault
the machine is D13. Safe. -/

namespace Sys2Proof.Machine

/-- `new(image)` (R140, R141): the image in the low end of memory, everything else as after reset. -/
def construct (image : List Byte) : Except ErrorKind State :=
  if image.length ≤ Config.memorySize then
    .ok { State.reset with mem := Memory.writeBytes [] 0 image }
  else .error .memoryOverflow

/-- `get_register(i)` for any natural `i` (R134, D17). -/
def hostGetRegister (i : Nat) (s : State) : Except ErrorKind Word := regRead i s

/-- `set_register(i, v)` for any natural `i` (R134, D17); `RUN` keeps its value (R129, R136). -/
def hostSetRegister (i : Nat) (v : Word) (s : State) : Except ErrorKind State := regWrite i v s

/-- `memory()`, the 4096 bytes, read only (R134). -/
def hostMemory (s : State) : List Byte := s.bytes 0 Config.memorySize

/-- The host's `load_word(a)` (R134). -/
def hostLoadWord (a : Word) (s : State) : Except ErrorKind Word := loadWord a s

/-- The host's `store_word(a, v)` (R134). -/
def hostStoreWord (a v : Word) (s : State) : Except ErrorKind State := storeWord a v s

/-- The host binds a sink to the machine (R138): its answers to the offers to come. -/
def hostBindSink (k : Sink) (s : State) : State := { s with sink := k }

/-- `run(sink)` with the runner's fuel (R135, D18): step until HALTED (`ok`) or an error; `none` where the fuel ends first,
which is no end of a run (R148). DESIGN CHOICE (log 17): the block itself has no step limit. Safe. -/
def hostRun : Nat → State → Option (Except ErrorKind Unit) × State
  | 0, s => (none, s)
  | fuel + 1, s =>
    match step s with
    | .next t =>
      match t.result with
      | .cont => hostRun fuel t
      | .halted => (some (.ok ()), t)
      | .err e => (some (.error e), t)
    | .fault _ => (none, s)
    | .refused _ => (none, s)

end Sys2Proof.Machine
end

