-- ==== Sys2Proof/Safety.lean ====
section
/-! DEFINITION. The terms claims use: the state a run may be in, what two states share, and the bytes that stand at IP. -/

namespace Sys2Proof.Machine

/-- HALTED or FAULTED (R128). -/
def State.terminal (s : State) : Bool := decide (s.run ≠ .running)

/-- The machine's invariant: memory is in canonical form, and a machine that has ended has an IP between 1 and 4096
(R125: a step that ends a run leaves IP advanced or pinned). -/
def State.Inv (s : State) : Prop :=
  s.mem.wf = true ∧ (s.run ≠ .running → 1 ≤ s.ip.toNat ∧ s.ip.toNat ≤ 4096)

/-- No register but those in `except` differs. -/
def sameRegsBut (except : List (Fin Config.numRegs)) (s t : State) : Prop :=
  ∀ r, r ∉ except → t.reg r = s.reg r

/-- Every byte of memory reads the same, but for the addresses `written`. -/
def sameMemoryBut (written : Nat → Prop) (s t : State) : Prop :=
  ∀ a, ¬ written a → t.byte a = s.byte a

/-- The output log and the sink's draws are the same: nothing was offered. -/
def sameOutput (s t : State) : Prop := t.out = s.out ∧ t.sink = s.sink

/-- The bytes from IP on, inside memory, are these (R60). -/
def State.AtIp (s : State) (bytes : List Byte) : Prop :=
  s.ip.toNat + bytes.length ≤ 4096 ∧ s.bytes s.ip.toNat bytes.length = bytes

/-- An opcode byte that matches no instruction: 0x00 and 0x09 to 0xFF (R68). -/
def illegalByte (b : Byte) : Prop := b.toNat = 0 ∨ 9 ≤ b.toNat

/-- Bytes read as one little-endian number, the first byte in bits 7 to 0 (R64). -/
def littleEndian : List Byte → Nat
  | [] => 0
  | b :: bs => b.toNat + 2 ^ 8 * littleEndian bs

/-- The number decimal digits stand for, most significant first; `none` where a code is no digit. -/
def readDigits : Nat → List Byte → Option Nat
  | n, [] => some n
  | n, c :: cs => if 0x30 ≤ c.toNat ∧ c.toNat ≤ 0x39 then readDigits (10 * n + (c.toNat - 0x30)) cs else none

/-- The integer a decimal text stands for: at least one digit, after `-` (0x2D) where it is negative. -/
def readDecimal : List Byte → Option Int
  | [] => none
  | c :: cs =>
    if c = 0x2D then (if cs = [] then none else (readDigits 0 cs).map fun n => -(n : Int))
    else (readDigits 0 (c :: cs)).map fun n => (n : Int)

/-- The field of a valid register index. -/
def regField (r : Fin Config.numRegs) : Byte := BitVec.ofNat 8 r.val

/-- The register a field names, if it names one (R22). -/
def fieldReg (f : Byte) : List (Fin Config.numRegs) :=
  if h : f.toNat < Config.numRegs then [⟨f.toNat, h⟩] else []

end Sys2Proof.Machine
end

