-- ==== Sys2Proof/WellFormed.lean ====
section
/-! DEFINITION. Which syntax is legal. Within a defined opcode every value of every operand byte is a legal encoding (R69),
so every `Instr` is well formed; a register field above 15 is an error of execution, not of form (R65), and
`Instr.fieldsValid` says when none is above 15. A memory image is well formed when it fits the memory (R141). -/

namespace Sys2Proof

/-- Well-formedness as an encoding: R69 puts no condition on any operand byte. -/
def Instr.wellFormed : Instr → Bool
  | .moveIf _ _ _ => true
  | .store _ _ => true
  | .load _ _ => true
  | .loadimm _ _ _ => true
  | .sub _ _ _ => true
  | .out _ => true
  | .exit => true
  | .outNumber _ => true

/-- The register fields of an instruction, in encoding order (R64). -/
def Instr.regFields : Instr → List Byte
  | .moveIf rd rs1 rs2 => [rd, rs1, rs2]
  | .store rs1 rs2 => [rs1, rs2]
  | .load rs1 rs2 => [rs1, rs2]
  | .loadimm rd _ _ => [rd]
  | .sub rd rs1 rs2 => [rd, rs1, rs2]
  | .out rs1 => [rs1]
  | .exit => []
  | .outNumber rs1 => [rs1]

/-- A register field names a register exactly when it is at most 15 (R22). -/
def fieldValid (f : Byte) : Bool := decide (f.toNat < Config.numRegs)

/-- Every register field of the instruction names a register. -/
def Instr.fieldsValid (i : Instr) : Bool := i.regFields.all fieldValid

/-- A machine can be constructed from the image (R141). -/
def imageWellFormed (image : List Byte) : Bool := decide (image.length ≤ Config.memorySize)

end Sys2Proof
end

