-- ==== Sys2Proof/Certificates/Slice0/Obligations.lean ====
section
/-! DEFINITION. The statements for the provers. Each docstring names the rule of spec/ it formalises; where a clause rests on
one of the spec's own decisions (D<n>, spec/92) or on a log entry of the model, the docstring says so and the statement's
basis is 'derived'. `regField r` is the operand byte of register `r`; a byte above 15 names no register (R22). -/

open Sys2Proof Sys2Proof.Machine

/-! Encoding -/

/-- Decoding the bytes of an instruction, whatever follows them, gives it back with what follows, for all eight
instructions and every value of every operand byte (R64, R69); and so does decoding the same bytes read as the little-endian
number `I` of R64, whatever stands above its bits. The byte positions are decision D4 (log 9). -/
def Obligations.DecodeOfEncodeIsIdentity : Prop :=
  ∀ i : Instr, (∀ rest : List Byte, decode (encode i ++ rest) = .ok (i, rest)) ∧
    ∀ above : Nat, decodeTableWord (8 * i.length) (littleEndian (encode i) + 2 ^ (8 * i.length) * above) = some i

/-- Bytes that decode are exactly the bytes of the instruction, followed by what decoding leaves: every word has one
meaning (R64, R65, R69; D4, log 9). -/
def Obligations.EncodeOfDecodeIsIdentity : Prop :=
  ∀ (bytes : List Byte) (i : Instr) (rest : List Byte), decode bytes = .ok (i, rest) → encode i ++ rest = bytes

/-- The illegal opcodes are exactly 0x00 and 0x09 to 0xFF, 248 of them (R67, R68), whatever follows them. -/
def Obligations.IllegalOpcodesAreExactlyTheUndefined : Prop :=
  (∀ (op : Byte) (rest : List Byte), decode (op :: rest) = .error (.illegalOpcode op) ↔ illegalByte op) ∧
  ((List.range 256).filter fun n => (Opcode.ofByte? (BitVec.ofNat 8 n)).isNone).length = 248

/-- The opcode byte alone sets the length (R61, R62): decoding consumes 4, 3, 3, 4, 4, 2, 1, 2 bytes for opcodes 1 to 8. -/
def Obligations.OpcodeByteSetsLength : Prop :=
  ∀ (op : Byte) (bytes : List Byte) (i : Instr) (rest : List Byte), decode (op :: bytes) = .ok (i, rest) →
    i.length = (if op = 1 ∨ op = 4 ∨ op = 5 then 4 else if op = 2 ∨ op = 3 then 3 else if op = 7 then 1 else 2) ∧
    rest.length + i.length = bytes.length + 1

/-- One word of each format, written out from R64 and the examples of spec/95, decodes to its instruction. -/
def Obligations.WordsFromTheSpecDecode : Prop :=
  decode [0x01, 0x03, 0x01, 0x02] = .ok (.moveIf 3 1 2, []) ∧
  decode [0x02, 0x01, 0x02] = .ok (.store 1 2, []) ∧
  decode [0x03, 0x03, 0x01] = .ok (.load 3 1, []) ∧
  decode [0x04, 0x01, 0x34, 0x12] = .ok (.loadimm 1 0x34 0x12, []) ∧
  decode [0x05, 0x03, 0x01, 0x02] = .ok (.sub 3 1 2, []) ∧
  decode [0x06, 0x01] = .ok (.out 1, []) ∧
  decode [0x07] = .ok (.exit, []) ∧
  decode [0x08, 0x03] = .ok (.outNumber 3, [])

/-! Reset and construction -/

/-- What construction leaves for an image that fits (R34, R140): the image in low memory, zero beyond, all registers 0,
RUNNING with no error, `OUT` empty. The `ERR` and `OUT` rows of R34 are marked derived there; the sink's draws are the
model's own field (log 3) and are not named. -/
def Obligations.ConstructionLoadsImage : Prop :=
  ∀ image : List Byte, image.length ≤ 4096 → ∃ s, construct image = .ok s ∧
    (∀ a, s.byte a = (image[a]?).getD 0) ∧ (∀ r, s.reg r = 0) ∧
    s.run = .running ∧ s.runCode = 0 ∧ s.errCode = 0 ∧ s.out = []

/-- R141: construction fails with `MemoryOverflow` exactly for an image longer than 4096; 4096 bytes succeed, and an empty
image leaves all memory zero. -/
def Obligations.ConstructionRefusesExactlyLongImages : Prop :=
  (∀ image : List Byte, 4096 < image.length → construct image = .error .memoryOverflow) ∧
  (∀ image : List Byte, image.length ≤ 4096 → ∃ s, construct image = .ok s) ∧
  (∃ s, construct [] = .ok s ∧ ∀ a, s.byte a = 0)

/-- R142: after construction execution starts at address 0, running. -/
def Obligations.ExecutionStartsAtZero : Prop :=
  ∀ (image : List Byte) (s : State), construct image = .ok s → s.ip = 0 ∧ s.run = .running

/-- The reset state of the model is the machine of the empty image (log 5), with every register and byte 0 (R34). -/
def Obligations.ResetIsTheEmptyImage : Prop :=
  construct [] = .ok State.reset ∧ (∀ r, State.reset.reg r = 0) ∧ (∀ a, State.reset.byte a = 0) ∧
  State.reset.run = .running ∧ State.reset.out = []

/-- R144: an image whose first byte is no opcode (an empty image has 0x00 there) ends its first step with
`InstructionError` and `ip = 1`. -/
def Obligations.ImageWithoutOpcodeFaultsAtOnce : Prop :=
  ∀ (image : List Byte) (s : State), construct image = .ok s → illegalByte ((image[0]?).getD 0) →
    ∃ t, step s = .next t ∧ t.result = .err .instructionError ∧ t.ip = 1 ∧ sameRegsBut [0] s t

/-! Registers -/

/-- R23: `get_register` and `set_register` fail with `RegisterOverflow` above 15 and otherwise always answer; a write
changes exactly its register, and a read of the same index then returns the value written. -/
def Obligations.RegisterAccessIsTotalAndExact : Prop :=
  ∀ (i : Nat) (v : Word) (s : State),
    (15 < i → hostGetRegister i s = .error .registerOverflow ∧ hostSetRegister i v s = .error .registerOverflow) ∧
    (i ≤ 15 → (∃ w, hostGetRegister i s = .ok w) ∧
      ∃ t, hostSetRegister i v s = .ok t ∧ hostGetRegister i t = .ok v ∧
        (∀ j, j ≠ i → hostGetRegister j t = hostGetRegister j s) ∧
        t.mem = s.mem ∧ t.run = s.run ∧ t.out = s.out ∧ t.sink = s.sink)

/-! Memory -/

/-- R43: `load_word` reads four bytes little-endian at any address up to 4092 and fails with `MemoryOverflow` above. -/
def Obligations.LoadWordIsLittleEndian : Prop :=
  ∀ (a : Word) (s : State),
    (4096 ≤ a.toNat + 3 → loadWord a s = .error .memoryOverflow) ∧
    (a.toNat + 3 < 4096 → ∃ w, loadWord a s = .ok w ∧
      w.toNat = (s.byte a.toNat).toNat + 2 ^ 8 * (s.byte (a.toNat + 1)).toNat +
        2 ^ 16 * (s.byte (a.toNat + 2)).toNat + 2 ^ 24 * (s.byte (a.toNat + 3)).toNat)

/-- R44: `store_word` writes byte `k` of the value at `a + k`, and nothing else; out of range it fails. That a failed store
writes nothing is decision D9 (log 12): the error carries no state. -/
def Obligations.StoreWordWritesFourBytes : Prop :=
  ∀ (a v : Word) (s : State), s.mem.wf = true →
    (4096 ≤ a.toNat + 3 → storeWord a v s = .error .memoryOverflow) ∧
    (a.toNat + 3 < 4096 → ∃ t, storeWord a v s = .ok t ∧
      (∀ k, k < 4 → (t.byte (a.toNat + k)).toNat = v.toNat / 2 ^ (8 * k) % 2 ^ 8) ∧
      (∀ b, b < a.toNat ∨ a.toNat + 4 ≤ b → t.byte b = s.byte b) ∧
      t.regs = s.regs ∧ t.run = s.run ∧ t.out = s.out ∧ t.sink = s.sink)

/-- A load after a store at the same address returns the word stored (R43, R44, R52), at any alignment (R45, D15). -/
def Obligations.LoadAfterStoreReturnsWord : Prop :=
  ∀ (a v : Word) (s t : State), s.mem.wf = true → storeWord a v s = .ok t → loadWord a t = .ok v

/-- The mixed-width view of R47, for two stores at any two addresses, however they overlap: every byte of memory is the
later store's where that one wrote it, else the earlier store's where that one did, else what it was; and a load after a
second store two bytes higher reads the low half of the first word below the low half of the second. -/
def Obligations.OverlappingStoresMixBytes : Prop :=
  ∀ (a b v w : Word) (s : State), s.mem.wf = true → a.toNat ≤ 4092 → b.toNat ≤ 4092 →
    ∃ t u x, storeWord a v s = .ok t ∧ storeWord b w t = .ok u ∧ loadWord a u = .ok x ∧
      (∀ c : Nat, (u.byte c).toNat =
        if b.toNat ≤ c ∧ c < b.toNat + 4 then w.toNat / 2 ^ (8 * (c - b.toNat)) % 2 ^ 8
        else if a.toNat ≤ c ∧ c < a.toNat + 4 then v.toNat / 2 ^ (8 * (c - a.toNat)) % 2 ^ 8
        else (s.byte c).toNat) ∧
      (b.toNat = a.toNat + 2 → x.toNat = v.toNat % 2 ^ 16 + 2 ^ 16 * (w.toNat % 2 ^ 16))

/-- The bound of R41 is exact: a word access answers exactly at addresses 0 to 4092, whatever their alignment, and an
address near 2^32 does not wrap (decisions D5 and D15, logs 10 and 18). -/
def Obligations.WordAccessBoundIsExact : Prop :=
  ∀ (a v : Word) (s : State),
    ((∃ w, loadWord a s = .ok w) ↔ a.toNat ≤ 4092) ∧ ((∃ t, storeWord a v s = .ok t) ↔ a.toNat ≤ 4092) ∧
    loadWord 0xFFFFFFFE s = .error .memoryOverflow

/-- The host's `memory()` is the 4096 bytes `M[0..4095]` (R134). -/
def Obligations.HostMemoryIsAllBytes : Prop :=
  ∀ s : State, (hostMemory s).length = 4096 ∧ ∀ a, a < 4096 → (hostMemory s)[a]? = some (s.byte a)

/-! The step -/

/-- A running machine whose bytes from IP on decode runs that instruction's handler, after IP has been advanced by its
length; the advance cannot overflow (R77, for every defined opcode, `exit` included). -/
def Obligations.StepRunsDecodedInstruction : Prop :=
  ∀ (s : State) (i : Instr) (rest : List Byte), s.run = .running → decode s.fetchWindow = .ok (i, rest) →
    step s = exec i (s.setIp (s.ip + BitVec.ofNat 32 i.length)) ∧
    (s.ip + BitVec.ofNat 32 i.length).toNat = s.ip.toNat + i.length ∧ s.ip.toNat + i.length ≤ 4096

/-- A running machine with the bytes of an instruction at IP, all inside memory, runs it on
exactly those bytes (R60, R76, R77; the byte positions are D4, log 9). -/
def Obligations.EncodedInstructionAtIpRuns : Prop :=
  ∀ (s : State) (i : Instr), s.run = .running → s.AtIp (encode i) →
    step s = exec i (s.setIp (s.ip + BitVec.ofNat 32 i.length))

/-- Placing a table word at IP (the host's `withFetchWord`, log 5) makes the next step run the instruction the decoder reads
from it. -/
def Obligations.PlacedWordRunsNext : Prop :=
  ∀ (s : State) (nbits w : Nat) (i : Instr), s.mem.wf = true → s.run = .running → s.ip.toNat + 4 ≤ 4096 →
    decodeTableWord nbits w = some i →
    step (s.withFetchWord nbits w) = exec i ((s.withFetchWord nbits w).setIp (s.ip + BitVec.ofNat 32 i.length))

/-- F0 (R73): a fetch at an IP of 4096 or more pins IP at 4096 and raises `MemoryOverflow`, changing nothing else. For an IP
above 4096 the pin is decision D6 (log 11). -/
def Obligations.FetchOutsideMemoryPinsIp : Prop :=
  ∀ s : State, s.run = .running → 4096 ≤ s.ip.toNat →
    step s = .next { s.setIp 4096 with run := .faulted .memoryOverflow }

/-- F1 (R74): an illegal opcode advances IP by one and raises `InstructionError`; no other register is written, and the
advance does not overflow. -/
def Obligations.IllegalOpcodeAdvancesIpByOne : Prop :=
  ∀ s : State, s.run = .running → s.ip.toNat < 4096 → illegalByte (s.byte s.ip.toNat) →
    step s = .next { s.setIp (s.ip + 1) with run := .faulted .instructionError } ∧
    (s.ip + 1).toNat = s.ip.toNat + 1 ∧ s.ip.toNat + 1 ≤ 4096

/-- F2 (R75): a defined opcode whose instruction does not lie inside memory pins IP at 4096 and raises `MemoryOverflow`,
changing nothing else; `exit` passes at 4095. -/
def Obligations.BoundaryCheckPinsIp : Prop :=
  ∀ (s : State) (o : Opcode), s.run = .running → s.ip.toNat < 4096 → Opcode.ofByte? (s.byte s.ip.toNat) = some o →
    (4096 ≤ s.ip.toNat + o.length - 1 →
      step s = .next { s.setIp 4096 with run := .faulted .memoryOverflow }) ∧
    (s.ip.toNat = 4095 → o = .exit → ∃ t, step s = .next t ∧ t.run = .halted)

/-- R78: phases F0 to F4 write no state but IP (and, on a raise, the run state); an error of F0 or F2 leaves IP at 4096,
one of F1 leaves it one past the opcode; and what is fetched depends on IP and on the instruction's own bytes alone. That
an F0 error leaves 4096 also where IP was above 4096 is decision D6 (log 11). -/
def Obligations.FetchTouchesOnlyIp : Prop :=
  ∀ s : State,
    (∀ i t, fetch s = .instr i t → t = s.setIp t.ip ∧
      ∀ s' : State, s'.ip = s.ip → (∀ k, k < i.length → s'.byte (s.ip.toNat + k) = s.byte (s.ip.toNat + k)) →
        fetch s' = .instr i (s'.setIp t.ip)) ∧
    (∀ t, fetch s = .raised t → ∃ e, t = { s.setIp t.ip with run := .faulted e } ∧
      (e = .memoryOverflow ∧ t.ip = 4096 ∨ e = .instructionError ∧ t.ip.toNat = s.ip.toNat + 1) ∧
      ∀ s' : State, s'.ip = s.ip → s'.byte s.ip.toNat = s.byte s.ip.toNat →
        fetch s' = .raised { s'.setIp t.ip with run := .faulted e })

/-- R127: after a step that a fetch fault ended, IP is 4096 and a further step answers `MemoryOverflow` again. Before the
latch the same holds of a running machine whose IP is 4096 already. -/
def Obligations.FetchFaultLatches : Prop :=
  ∀ s : State, s.run = .running →
    (∀ o, decode s.fetchWindow = .error (.truncated o) → ∃ t u, step s = .next t ∧ t.ip = 4096 ∧
      t.result = .err .memoryOverflow ∧ step t = .next u ∧ u.ip = 4096 ∧ u.result = .err .memoryOverflow) ∧
    (s.ip = 4096 → ∃ t u, step s = .next t ∧ t.ip = 4096 ∧
      t.result = .err .memoryOverflow ∧ step t = .next u ∧ u.ip = 4096 ∧ u.result = .err .memoryOverflow)

/-- R128, which rests on decision D7 (log 4): a step request in a terminal state changes no state, so it answers the
latched outcome again. -/
def Obligations.TerminalStatesAbsorb : Prop :=
  ∀ s : State, s.run ≠ .running → step s = .next s

/-- R82: a step that raises nothing answers CONTINUE, or HALTED when the instruction was `exit`; an error answers
`Err(E)`. -/
def Obligations.StepAnswersContinueHaltedOrError : Prop :=
  ∀ (s : State) (i : Instr) (rest : List Byte), s.run = .running → decode s.fetchWindow = .ok (i, rest) →
    ∃ t, step s = .next t ∧
      ((∀ e, t.run ≠ .faulted e) → t.result = if i = .exit then .halted else .cont) ∧
      (∀ e, t.run = .faulted e → t.result = .err e)

/-- Every step request is answered with a state: no step of this hardware stops outside its own states (R126, U7; log 1). -/
def Obligations.StepAlwaysAnswersAState : Prop :=
  ∀ s : State, ∃ t, step s = .next t

/-! The instructions: result, exceptions and completion -/

/-- R90: `move_if`. The whole effect for valid fields; with a false condition neither `rd` nor `rs1` is checked, and the
order of the checks is decision D8 (log 8). -/
def Obligations.MoveIfMovesWhenNonZero : Prop :=
  (∀ (rd rs1 rs2 : Fin 16) (s : State), s.reg rs2 ≠ 0 →
    ∃ t, exec (.moveIf (regField rd) (regField rs1) (regField rs2)) s = .next t ∧
      t.reg rd = s.reg rs1 ∧ t = s.setReg rd (s.reg rs1)) ∧
  (∀ (rd rs1 : Byte) (rs2 : Fin 16) (s : State), s.reg rs2 = 0 →
    exec (.moveIf rd rs1 (regField rs2)) s = .next s) ∧
  (∀ (rd rs1 rs2 : Byte) (s : State), 15 < rs2.toNat →
    exec (.moveIf rd rs1 rs2) s = .next { s with run := .faulted .registerOverflow }) ∧
  (∀ (rd rs1 : Byte) (rs2 : Fin 16) (s : State), s.reg rs2 ≠ 0 → 15 < rs1.toNat ∨ 15 < rd.toNat →
    exec (.moveIf rd rs1 (regField rs2)) s = .next { s with run := .faulted .registerOverflow })

/-- R91: `loadimm`, its encoding, its sign-extended value for every pair of immediate bytes, and its one exception. -/
def Obligations.LoadimmWritesSignExtended : Prop :=
  (∀ (rd : Fin 16) (lo hi : Byte) (s : State),
    ∃ t, exec (.loadimm (regField rd) lo hi) s = .next t ∧ t = s.setReg rd (t.reg rd) ∧
      (t.reg rd).toNat = (if hi.toNat < 0x80 then 0 else 0xFFFF0000) + 2 ^ 8 * hi.toNat + lo.toNat) ∧
  (∀ (rd lo hi : Byte) (s : State), 15 < rd.toNat →
    exec (.loadimm rd lo hi) s = .next { s with run := .faulted .registerOverflow }) ∧
  (∀ rd lo hi : Byte, encode (.loadimm rd lo hi) = [0x04, rd, lo, hi])

/-- R92: `sub`, its encoding, the difference modulo 2^32 computed on exact integers, and its exception. -/
def Obligations.SubWritesWrappedDifference : Prop :=
  (∀ (rd rs1 rs2 : Fin 16) (s : State),
    ∃ t, exec (.sub (regField rd) (regField rs1) (regField rs2)) s = .next t ∧ t = s.setReg rd (t.reg rd) ∧
      ((t.reg rd).toNat : Int) = (((s.reg rs1).toNat : Int) - ((s.reg rs2).toNat : Int)) % 2 ^ 32) ∧
  (∀ (rd rs1 rs2 : Byte) (s : State), 15 < rs1.toNat ∨ 15 < rs2.toNat ∨ 15 < rd.toNat →
    exec (.sub rd rs1 rs2) s = .next { s with run := .faulted .registerOverflow }) ∧
  (∀ rd rs1 rs2 : Byte, encode (.sub rd rs1 rs2) = [0x05, rd, rs1, rs2])

/-- R100: `store` completes for every address up to 4092, whatever its alignment, and writes the four bytes of the value;
bad fields raise `RegisterOverflow`, then a bad address `MemoryOverflow`. That nothing is written then is D9 (log 12). -/
def Obligations.StoreWritesWord : Prop :=
  (∀ (rs1 rs2 : Fin 16) (s : State), s.mem.wf = true → (s.reg rs1).toNat ≤ 4092 →
    ∃ t, exec (.store (regField rs1) (regField rs2)) s = .next t ∧ t = { s with mem := t.mem } ∧
      (∀ k, k < 4 → (t.byte ((s.reg rs1).toNat + k)).toNat = (s.reg rs2).toNat / 2 ^ (8 * k) % 2 ^ 8) ∧
      ∀ b, b < (s.reg rs1).toNat ∨ (s.reg rs1).toNat + 4 ≤ b → t.byte b = s.byte b) ∧
  (∀ (rs1 rs2 : Fin 16) (s : State), 4092 < (s.reg rs1).toNat →
    exec (.store (regField rs1) (regField rs2)) s = .next { s with run := .faulted .memoryOverflow }) ∧
  (∀ (rs1 rs2 : Byte) (s : State), 15 < rs1.toNat ∨ 15 < rs2.toNat →
    exec (.store rs1 rs2) s = .next { s with run := .faulted .registerOverflow })

/-- R101: `load` completes for every address up to 4092 and writes the little-endian word there. A bad address field raises
`RegisterOverflow`; a bad address `MemoryOverflow`, before the destination field is looked at (decision D8, log 8). -/
def Obligations.LoadReadsWord : Prop :=
  (∀ (rs1 rs2 : Fin 16) (s : State), (s.reg rs2).toNat ≤ 4092 →
    ∃ t, exec (.load (regField rs1) (regField rs2)) s = .next t ∧ t = s.setReg rs1 (t.reg rs1) ∧
      (t.reg rs1).toNat = (s.byte (s.reg rs2).toNat).toNat + 2 ^ 8 * (s.byte ((s.reg rs2).toNat + 1)).toNat +
        2 ^ 16 * (s.byte ((s.reg rs2).toNat + 2)).toNat + 2 ^ 24 * (s.byte ((s.reg rs2).toNat + 3)).toNat) ∧
  (∀ (rs1 rs2 : Byte) (s : State), 15 < rs2.toNat →
    exec (.load rs1 rs2) s = .next { s with run := .faulted .registerOverflow }) ∧
  (∀ (rs1 : Byte) (rs2 : Fin 16) (s : State), 4092 < (s.reg rs2).toNat →
    exec (.load rs1 (regField rs2)) s = .next { s with run := .faulted .memoryOverflow }) ∧
  (∀ (rs1 : Byte) (rs2 : Fin 16) (s : State), (s.reg rs2).toNat ≤ 4092 → 15 < rs1.toNat →
    exec (.load rs1 (regField rs2)) s = .next { s with run := .faulted .registerOverflow })

/-- R110: `out` offers the low 8 bits of the register as one code (D10, log 13). Where the sink accepts, the code is
appended to `OUT` and one draw is used (log 2); a bad field raises `RegisterOverflow` and the sink is not called. -/
def Obligations.OutAppendsLowByte : Prop :=
  (∀ (rs1 : Fin 16) (s : State), s.sink.next = .accept →
    ∃ t c, exec (.out (regField rs1)) s = .next t ∧ t = { s with out := s.out ++ [c], sink := s.sink.advance } ∧
      c.toNat = (s.reg rs1).toNat % 2 ^ 8) ∧
  (∀ (rs1 : Byte) (s : State), 15 < rs1.toNat →
    exec (.out rs1) s = .next { s with run := .faulted .registerOverflow })

/-- R111: `out_number` offers the decimal text of the register read as a signed 32-bit integer (form: D12, log 15), which is
`dec` of it and reads back as it. Where the sink accepts, the text is appended to `OUT` and one draw is used (log 2); a bad
field raises `RegisterOverflow` and the sink is not called. -/
def Obligations.OutNumberAppendsDecimal : Prop :=
  (∀ (rs1 : Fin 16) (s : State), s.sink.next = .accept →
    ∃ t text, exec (.outNumber (regField rs1)) s = .next t ∧
      t = { s with out := s.out ++ text, sink := s.sink.advance } ∧
      text = dec (s.reg rs1).toInt ∧ readDecimal text = some (s.reg rs1).toInt ∧ 1 ≤ text.length ∧ text.length ≤ 11) ∧
  (∀ (rs1 : Byte) (s : State), 15 < rs1.toNat →
    exec (.outNumber rs1) s = .next { s with run := .faulted .registerOverflow })

/-- A rejected write (R124, R137): the step raises `OutputError`, and `OUT` gains the prefix of the offered codes that the
host's draw keeps (decision D11, log 14). -/
def Obligations.RejectedWriteRaisesOutputError : Prop :=
  ∀ (rs1 : Fin 16) (kept : Nat) (s : State), s.sink.next = .reject kept →
    (∃ t, exec (.out (regField rs1)) s = .next t ∧ t.run = .faulted .outputError ∧
      t.out = s.out ++ [BitVec.ofNat 8 (s.reg rs1).toNat].take kept ∧ t.regs = s.regs ∧ t.mem = s.mem) ∧
    (∃ t, exec (.outNumber (regField rs1)) s = .next t ∧ t.run = .faulted .outputError ∧
      t.out = s.out ++ (dec (s.reg rs1).toInt).take kept ∧ t.regs = s.regs ∧ t.mem = s.mem)

/-- R112: `exit` halts. Its handler changes nothing but the run state, and its step advances IP by one; at an IP of 4096 or
more it is never reached. -/
def Obligations.ExitHalts : Prop :=
  (∀ s : State, exec .exit s = .next { s with run := .halted }) ∧
  (∀ s : State, s.run = .running → s.AtIp [0x07] →
    step s = .next { s.setIp (s.ip + 1) with run := .halted } ∧ (s.ip + 1).toNat = s.ip.toNat + 1 ∧
    ∀ n, hostRun (n + 1) s = (some (.ok ()), { s.setIp (s.ip + 1) with run := .halted })) ∧
  (∀ s : State, s.run = .running → 4096 ≤ s.ip.toNat → ∃ t, step s = .next t ∧ t.run = .faulted .memoryOverflow) ∧
  encode .exit = [0x07]

/-- The decimal text of R111 for every word: it reads back as the signed value, has no leading zero but the single digit
`0`, and holds digits only after an optional minus sign (decision D12, log 15). -/
def Obligations.DecimalTextIsShortestSigned : Prop :=
  dec 0 = [0x30] ∧ ∀ n : Int, readDecimal (dec n) = some n ∧
    (0 ≤ n → (dec n).head? = some 0x30 → n = 0) ∧ (n < 0 → (dec n).head? = some 0x2D ∧ (dec n)[1]? ≠ some 0x30)

/-- A write of register 0 is a jump (R24, R81, C1): after each of the four instructions that write a register, with
destination `r0`, IP is the value written. -/
def Obligations.WritingRegisterZeroJumps : Prop :=
  ∀ (r q : Fin 16) (lo hi : Byte) (s : State),
    (s.reg q ≠ 0 → ∃ t, exec (.moveIf 0 (regField r) (regField q)) s = .next t ∧ t.ip = s.reg r) ∧
    (∃ t, exec (.sub 0 (regField r) (regField q)) s = .next t ∧ t.ip = s.reg r - s.reg q) ∧
    (∃ t, exec (.loadimm 0 lo hi) s = .next t ∧ t.ip = (hi ++ lo : BitVec 16).signExtend 32) ∧
    (∀ w, loadWord (s.reg q) s = .ok w → ∃ t, exec (.load 0 (regField q)) s = .next t ∧ t.ip = w)

/-- `getip rd`, which is `move_if rd, r0, r0`, gives the address of the next instruction (R71, by R25 and R146). -/
def Obligations.GetipGivesNextAddress : Prop :=
  ∀ (s : State) (rd : Fin 16), s.run = .running → s.AtIp [0x01, regField rd, 0x00, 0x00] →
    ∃ t, step s = .next t ∧ (t.reg rd).toNat = s.ip.toNat + 4 ∧ t.ip.toNat = s.ip.toNat + 4 ∧
      sameRegsBut [0, rd] s t ∧ t.run = .running

/-- Each field that reads a register reads, where it names register 0, the address of the next instruction (R25): the
source and the condition of `move_if` (a condition of 4 or more is never zero), both sources of `sub`, the address of
`load`, the address and the value of `store`, and the sources of `out` and `out_number` where the sink accepts (logs 2, 13
and 15). -/
def Obligations.RegisterZeroSourceIsNextAddress : Prop :=
  ∀ (s : State) (r q : Fin 16), s.run = .running →
    (s.AtIp [0x01, regField r, 0x00, regField q] → (s.setIp (s.ip + 4)).reg q ≠ 0 →
      ∃ t, step s = .next t ∧ (t.reg r).toNat = s.ip.toNat + 4) ∧
    (s.AtIp [0x01, regField r, regField q, 0x00] →
      ∃ t, step s = .next t ∧ t.reg r = (s.setIp (s.ip + 4)).reg q) ∧
    (s.AtIp [0x05, regField r, 0x00, regField q] → ∃ t, step s = .next t ∧
      ((t.reg r).toNat : Int) = ((s.ip.toNat + 4 : Nat) - ((s.setIp (s.ip + 4)).reg q).toNat : Int) % 2 ^ 32) ∧
    (s.AtIp [0x05, regField r, regField q, 0x00] → ∃ t, step s = .next t ∧
      ((t.reg r).toNat : Int) = (((s.setIp (s.ip + 4)).reg q).toNat - (s.ip.toNat + 4 : Nat) : Int) % 2 ^ 32) ∧
    (s.AtIp [0x03, regField r, 0x00] → s.ip.toNat + 3 ≤ 4092 → ∃ t, step s = .next t ∧
      (t.reg r).toNat = (s.byte (s.ip.toNat + 3)).toNat + 2 ^ 8 * (s.byte (s.ip.toNat + 4)).toNat +
        2 ^ 16 * (s.byte (s.ip.toNat + 5)).toNat + 2 ^ 24 * (s.byte (s.ip.toNat + 6)).toNat) ∧
    (s.AtIp [0x02, 0x00, regField q] → s.mem.wf = true → s.ip.toNat + 3 ≤ 4092 → ∃ t, step s = .next t ∧
      ∀ k, k < 4 →
        (t.byte (s.ip.toNat + 3 + k)).toNat = ((s.setIp (s.ip + 3)).reg q).toNat / 2 ^ (8 * k) % 2 ^ 8) ∧
    (s.AtIp [0x02, regField r, 0x00] → s.mem.wf = true → ((s.setIp (s.ip + 3)).reg r).toNat ≤ 4092 →
      ∃ t, step s = .next t ∧ ∀ k, k < 4 →
        (t.byte (((s.setIp (s.ip + 3)).reg r).toNat + k)).toNat = (s.ip.toNat + 3) / 2 ^ (8 * k) % 2 ^ 8) ∧
    (s.AtIp [0x06, 0x00] → s.sink.next = .accept → ∃ t, step s = .next t ∧
      t.out = s.out ++ [BitVec.ofNat 8 (s.ip.toNat + 2)]) ∧
    (s.AtIp [0x08, 0x00] → s.sink.next = .accept → ∃ t, step s = .next t ∧
      t.out = s.out ++ dec (s.ip.toNat + 2 : Nat))

/-- The pseudo-instructions of R71 have the effects its table derives from their expansions (D16), in the state after the IP
advance: `li`, `jmp`, `jnz`, `clr`, `getip`, `nop`, `halt`. -/
def Obligations.PseudoInstructionsHaveTheirEffects : Prop :=
  ∀ (rd rt rc : Fin 16) (imm : BitVec 16) (s : State),
    exec (pseudoLi (regField rd) imm) s = .next (s.setReg rd (imm.signExtend 32)) ∧
    (imm.toNat ≤ 0x7FFF → ∃ t, exec (pseudoJmp imm) s = .next t ∧ t.ip.toNat = imm.toNat) ∧
    (∃ t, exec (pseudoJnz (regField rt) (regField rc)) s = .next t ∧
      t.ip = if s.reg rc ≠ 0 then s.reg rt else s.ip) ∧
    (∃ t, exec (pseudoClr (regField rd)) s = .next t ∧ t.reg rd = 0 ∧ t = s.setReg rd 0) ∧
    (s.ip ≠ 0 → exec (pseudoGetip (regField rd)) s = .next (s.setReg rd s.ip)) ∧
    exec pseudoNop s = .next s ∧ exec pseudoHalt s = .next { s with run := .halted }

/-! Frames -/

/-- `move_if`, `loadimm` and `sub` (R90 to R93) change at most the register `rd` names and, where they raise, the run
state: no other register, no byte of memory, no output. -/
def Obligations.RegisterOperationsFrame : Prop :=
  ∀ (i : Instr) (rd : Byte) (s t : State), exec i s = .next t →
    (∃ x y, i = .moveIf rd x y ∨ i = .loadimm rd x y ∨ i = .sub rd x y) →
    sameRegsBut (fieldReg rd) s t ∧ sameMemoryBut (fun _ => False) s t ∧ sameOutput s t ∧
      (t.run = s.run ∨ t.run = .faulted .registerOverflow)

/-- `load` (R101) changes at most its destination register and, where it raises, the run state. -/
def Obligations.LoadFrame : Prop :=
  ∀ (rs1 rs2 : Byte) (s t : State), exec (.load rs1 rs2) s = .next t →
    sameRegsBut (fieldReg rs1) s t ∧ sameMemoryBut (fun _ => False) s t ∧ sameOutput s t ∧
      (t.run = s.run ∨ t.run = .faulted .registerOverflow ∨ t.run = .faulted .memoryOverflow)

/-- `store` (R100) writes no register and no output; memory outside the four bytes at the address its address operand gives
is unchanged, and where it raises, all of memory. -/
def Obligations.StoreFrame : Prop :=
  ∀ (rs1 rs2 : Byte) (s t : State), s.mem.wf = true → exec (.store rs1 rs2) s = .next t →
    sameRegsBut [] s t ∧ sameOutput s t ∧
      (∀ a, readAddress rs1 s = .ok a → sameMemoryBut (fun b => a.toNat ≤ b ∧ b < a.toNat + 4) s t) ∧
      (t.run = s.run ∨
        sameMemoryBut (fun _ => False) s t ∧ (t.run = .faulted .registerOverflow ∨ t.run = .faulted .memoryOverflow))

/-- `out` and `out_number` (R110, R111) write no register and no byte of memory; they append at most 11 codes to `OUT`. -/
def Obligations.OutputFrame : Prop :=
  ∀ (rs1 : Byte) (i : Instr) (s t : State), i = .out rs1 ∨ i = .outNumber rs1 → exec i s = .next t →
    sameRegsBut [] s t ∧ sameMemoryBut (fun _ => False) s t ∧
      (∃ codes, t.out = s.out ++ codes ∧ codes.length ≤ 11) ∧
      (t.run = s.run ∨ t.run = .faulted .registerOverflow ∧ sameOutput s t ∨ t.run = .faulted .outputError)

/-- `exit` (R112) writes no register, no memory and no output. -/
def Obligations.ExitFrame : Prop :=
  ∀ s t : State, exec .exit s = .next t →
    sameRegsBut [] s t ∧ sameMemoryBut (fun _ => False) s t ∧ sameOutput s t

/-! Whole-machine rules -/

/-- Every step keeps the invariant: memory stays in canonical form, and a machine that has ended has an IP between 1 and
4096 (R125; for a jump above 4096 the pin is D6, log 11). -/
def Obligations.StepKeepsInvariant : Prop :=
  ∀ s t : State, s.Inv → step s = .next t → t.Inv

/-- The reset state and every constructed machine meet the invariant (R34, R140). -/
def Obligations.ConstructedMachinesMeetInvariant : Prop :=
  State.reset.Inv ∧ ∀ (image : List Byte) (s : State), construct image = .ok s → s.Inv

/-- The host's operations between steps keep memory in canonical form and change neither `RUN` nor `OUT`, so they never
revive a terminal machine (R129, R134, R136; decision D13, log 16). -/
def Obligations.HostAccessKeepsRunState : Prop :=
  ∀ s t : State, s.mem.wf = true →
    (∃ i v, hostSetRegister i v s = .ok t) ∨ (∃ a v, hostStoreWord a v s = .ok t) →
    t.mem.wf = true ∧ t.run = s.run ∧ t.out = s.out ∧ (s.run ≠ .running → step t = .next t)

/-- Output only grows, by at most 11 codes a step, and only a running machine with opcode 6 or 8 at IP adds any (R31, R137,
R138). -/
def Obligations.OutputOnlyGrows : Prop :=
  ∀ s t : State, step s = .next t →
    (∃ codes, t.out = s.out ++ codes ∧ codes.length ≤ 11) ∧
    (t.out ≠ s.out → s.run = .running ∧ s.ip.toNat < 4096 ∧ (s.byte s.ip.toNat = 6 ∨ s.byte s.ip.toNat = 8))

/-- Memory changes only by `store` (R27): a step that changes memory is the step of a running machine with opcode 2 at IP,
and it changes at most the four bytes at the value of its address register after the IP advance (R100). -/
def Obligations.OnlyStoreChangesMemory : Prop :=
  ∀ s t : State, s.mem.wf = true → step s = .next t → t.mem ≠ s.mem →
    s.run = .running ∧ s.byte s.ip.toNat = 2 ∧
    ∃ r : Fin 16, s.byte (s.ip.toNat + 1) = regField r ∧
      sameMemoryBut (fun b => ((s.setIp (s.ip + 3)).reg r).toNat ≤ b ∧ b < ((s.setIp (s.ip + 3)).reg r).toNat + 4) s t

/-- No instruction reads the output log (R31, R32): two machines that differ only in what `OUT` held before take the same
step. -/
def Obligations.OutputLogIsNeverRead : Prop :=
  ∀ (s t : State) (before : List Byte), step s = .next t →
    step { s with out := before ++ s.out } = .next { t with out := before ++ t.out }

/-- The sink's draws reach no instruction but `out` and `out_number`, and no fetch (R138; log 2). -/
def Obligations.SinkMattersOnlyToOutput : Prop :=
  ∀ (s t : State) (k : Sink), step s = .next t → s.byte s.ip.toNat ≠ 6 → s.byte s.ip.toNat ≠ 8 →
    step (hostBindSink k s) = .next (hostBindSink k t)

/-- A store over the next instruction is seen by the next fetch (R55): with `store` at IP, the value of its address register
the advanced IP (register 0 among them) and 0x07 the low byte of its value, the second step halts. -/
def Obligations.StoredExitIsFetchedNext : Prop :=
  ∀ (s : State) (rs1 rs2 : Fin 16), s.mem.wf = true → s.run = .running → s.AtIp [0x02, regField rs1, regField rs2] →
    ((s.setIp (s.ip + 3)).reg rs1).toNat = s.ip.toNat + 3 → s.ip.toNat + 3 ≤ 4092 →
    ((s.setIp (s.ip + 3)).reg rs2).toNat % 2 ^ 8 = 7 →
    ∃ t u, step s = .next t ∧ t.run = .running ∧ step t = .next u ∧ u.result = .halted ∧
      u.ip.toNat = s.ip.toNat + 4

/-- R123: a step raises `InstructionError` exactly for an opcode byte 0x00 or 0x09 to 0xFF, and no handler raises it. -/
def Obligations.InstructionErrorIsDecodeOnly : Prop :=
  (∀ s : State, s.run = .running → s.ip.toNat < 4096 →
    ∃ t, step s = .next t ∧ (t.run = .faulted .instructionError ↔ illegalByte (s.byte s.ip.toNat))) ∧
  (∀ (i : Instr) (s t : State), exec i s = .next t → t.run = .faulted .instructionError →
    s.run = .faulted .instructionError)

/-- R124: from a running machine a handler raises `OutputError` exactly when it is `out` or `out_number`, its field names a
register and the sink rejects the write; fetch and decode never raise it. -/
def Obligations.OutputErrorIsSinkRejection : Prop :=
  (∀ (i : Instr) (s : State), s.run = .running →
    ∃ t, exec i s = .next t ∧ (t.run = .faulted .outputError ↔
      (∃ r, i = .out (regField r) ∨ i = .outNumber (regField r)) ∧ s.sink.next ≠ .accept)) ∧
  (∀ s t : State, fetch s = .raised t → t.run ≠ .faulted .outputError)

/-- R122: from a running machine a handler raises `RegisterOverflow` only where some register field of the instruction is
above 15. -/
def Obligations.RegisterOverflowNeedsBadField : Prop :=
  ∀ (i : Instr) (s t : State), s.run = .running → exec i s = .next t → t.run = .faulted .registerOverflow →
    i.fieldsValid = false

/-- `run` (R135) stops at the first terminal answer: where it answers with some fuel, some number of steps of the machine,
at least one and at most that fuel, reaches the state it leaves, every state strictly between is running, and its answer
is that state's outcome. The fuel is the runner's (D18, log 17). -/
def Obligations.RunStopsAtFirstTerminal : Prop :=
  ∀ (fuel : Nat) (s t : State) (answer : Except ErrorKind Unit), hostRun fuel s = (some answer, t) →
    ∃ k, 1 ≤ k ∧ k ≤ fuel ∧ Sys2Proof.core.run k s = .next t ∧
      (∀ j, 1 ≤ j → j < k → ∃ u : State, Sys2Proof.core.run j s = .next u ∧ u.run = .running) ∧
      (answer = .ok () ∧ t.run = .halted ∨ ∃ e, answer = .error e ∧ t.run = .faulted e)

/-- The codes of `RUN` and `ERR` (R28, R120) are those of decision D3, and the pairs R28 excludes never occur. -/
def Obligations.RunStateCodes : Prop :=
  ∀ s : State, (s.run = .running ↔ s.runCode = 0) ∧ (s.run = .halted ↔ s.runCode = 1) ∧
    ((∃ e, s.run = .faulted e) ↔ s.runCode = 2) ∧ (s.errCode = 0 ↔ s.runCode ≠ 2) ∧ s.errCode.toNat ≤ 4 ∧
    (s.run = .faulted .memoryOverflow ↔ s.errCode = 1) ∧ (s.run = .faulted .registerOverflow ↔ s.errCode = 2) ∧
    (s.run = .faulted .instructionError ↔ s.errCode = 3) ∧ (s.run = .faulted .outputError ↔ s.errCode = 4)
end

