-- ==== Sys2Proof/Laws/State.lean ====
section
/-! SUPPORT. One small lemma per field and update of the state, so that no later proof unfolds a record update. -/

namespace Sys2Proof.Machine

variable (s : State) (r q : Fin Config.numRegs) (v w : Word) (e : ErrorKind)

/-! setReg and setIp -/

@[simp] theorem setReg_mem : (s.setReg r v).mem = s.mem := rfl
@[simp] theorem setReg_run : (s.setReg r v).run = s.run := rfl
@[simp] theorem setReg_out : (s.setReg r v).out = s.out := rfl
@[simp] theorem setReg_sink : (s.setReg r v).sink = s.sink := rfl
@[simp] theorem setReg_byte (a : Nat) : (s.setReg r v).byte a = s.byte a := rfl
@[simp] theorem setIp_mem : (s.setIp v).mem = s.mem := rfl
@[simp] theorem setIp_run : (s.setIp v).run = s.run := rfl
@[simp] theorem setIp_out : (s.setIp v).out = s.out := rfl
@[simp] theorem setIp_sink : (s.setIp v).sink = s.sink := rfl
@[simp] theorem setIp_byte (a : Nat) : (s.setIp v).byte a = s.byte a := rfl

/-- A write changes exactly its register (R23). -/
theorem reg_setReg : (s.setReg r v).reg q = if r = q then v else s.reg q := by
  simp [State.reg, State.setReg, Vector.getElem_set, Fin.ext_iff]

@[simp] theorem reg_setReg_same : (s.setReg r v).reg r = v := by simp [reg_setReg]

theorem reg_setReg_other {r q : Fin Config.numRegs} (h : r ≠ q) : (s.setReg r v).reg q = s.reg q := by
  simp [reg_setReg, h]

@[simp] theorem setReg_setReg : (s.setReg r v).setReg r w = s.setReg r w := by
  simp [State.setReg]

@[simp] theorem ip_setIp : (s.setIp v).ip = v := reg_setReg_same s 0 v

theorem ip_setReg_other {r : Fin Config.numRegs} (h : r ≠ 0) : (s.setReg r v).ip = s.ip :=
  reg_setReg_other s v h

theorem reg_setIp_other {q : Fin Config.numRegs} (h : q ≠ 0) : (s.setIp v).reg q = s.reg q :=
  reg_setReg_other s v (Ne.symm h)

/-! raise -/

@[simp] theorem raise_regs : (raise e s).regs = s.regs := rfl
@[simp] theorem raise_mem : (raise e s).mem = s.mem := rfl
@[simp] theorem raise_run : (raise e s).run = .faulted e := rfl
@[simp] theorem raise_out : (raise e s).out = s.out := rfl
@[simp] theorem raise_sink : (raise e s).sink = s.sink := rfl
@[simp] theorem raise_reg : (raise e s).reg r = s.reg r := rfl
@[simp] theorem raise_ip : (raise e s).ip = s.ip := rfl
@[simp] theorem raise_byte (a : Nat) : (raise e s).byte a = s.byte a := rfl

/-! updates of one field -/

@[simp] theorem reg_withMem (m : Memory) : { s with mem := m }.reg r = s.reg r := rfl
@[simp] theorem ip_withMem (m : Memory) : { s with mem := m }.ip = s.ip := rfl
@[simp] theorem byte_withMem (m : Memory) (a : Nat) : { s with mem := m }.byte a = m.read a := rfl
@[simp] theorem reg_withRun (x : RunState) : { s with run := x }.reg r = s.reg r := rfl
@[simp] theorem ip_withRun (x : RunState) : { s with run := x }.ip = s.ip := rfl
@[simp] theorem byte_withRun (x : RunState) (a : Nat) : { s with run := x }.byte a = s.byte a := rfl

/-! emit -/

@[simp] theorem emit_regs (codes : List Byte) : (emit codes s).regs = s.regs := by
  unfold emit; split <;> rfl
@[simp] theorem emit_mem (codes : List Byte) : (emit codes s).mem = s.mem := by
  unfold emit; split <;> rfl
@[simp] theorem emit_sink (codes : List Byte) : (emit codes s).sink = s.sink.advance := by
  unfold emit; split <;> rfl
@[simp] theorem emit_reg (codes : List Byte) : (emit codes s).reg r = s.reg r := by
  simp [State.reg]
@[simp] theorem emit_ip (codes : List Byte) : (emit codes s).ip = s.ip := by
  simp [State.ip]
@[simp] theorem emit_byte (codes : List Byte) (a : Nat) : (emit codes s).byte a = s.byte a := by
  simp [State.byte]

/-! reset -/

@[simp] theorem reset_run : State.reset.run = .running := rfl
@[simp] theorem reset_mem : State.reset.mem = [] := rfl
@[simp] theorem reset_out : State.reset.out = [] := rfl
@[simp] theorem reset_reg : State.reset.reg r = 0 := by simp [State.reg, State.reset]
@[simp] theorem reset_ip : State.reset.ip = 0 := reset_reg 0

end Sys2Proof.Machine
end

