-- ==== Sys2Proof/Laws/Memory.lean ====
section
/-! SUPPORT. Memory as a canonical list: every write keeps the form, a read after a write gives the byte written or what
was there, and two memories that read alike are the same list. -/

namespace Sys2Proof.Machine

theorem wfFrom_cons {low a : Nat} {b : Byte} {m : Memory} :
    Memory.wfFrom low ((a, b) :: m) = true ↔
      low ≤ a ∧ a < Config.memorySize ∧ b ≠ Memory.unlisted ∧ Memory.wfFrom (a + 1) m = true := by
  simp [Memory.wfFrom, and_assoc]

/-- An address below every listed one reads as unlisted. -/
theorem read_below {m : Memory} {low a : Nat} (h : Memory.wfFrom low m = true) (ha : a < low) :
    m.read a = Memory.unlisted := by
  induction m generalizing low with
  | nil => rfl
  | cons cell m ih =>
    obtain ⟨c, v⟩ := cell
    obtain ⟨hc, -, -, hm⟩ := wfFrom_cons.1 h
    rw [Memory.read, if_neg (by omega)]
    exact ih hm (by omega)

theorem wfFrom_mono {m : Memory} {low low' : Nat} (h : Memory.wfFrom low m = true) (hl : low' ≤ low) :
    Memory.wfFrom low' m = true := by
  cases m with
  | nil => rfl
  | cons cell m =>
    obtain ⟨hc, hr⟩ := wfFrom_cons.1 h
    exact wfFrom_cons.2 ⟨by omega, hr⟩

theorem wfFrom_write {m : Memory} {low a : Nat} {b : Byte} (h : Memory.wfFrom low m = true) (hl : low ≤ a)
    (ha : a < Config.memorySize) : Memory.wfFrom low (m.write a b) = true := by
  induction m generalizing low with
  | nil =>
    unfold Memory.write
    split
    · rfl
    · exact wfFrom_cons.2 ⟨hl, ha, ‹_›, rfl⟩
  | cons cell m ih =>
    obtain ⟨c, v⟩ := cell
    obtain ⟨hc, hc', hv, hm⟩ := wfFrom_cons.1 h
    unfold Memory.write
    split_ifs with hlt hb heq hb
    · exact h
    · exact wfFrom_cons.2 ⟨hl, ha, hb, wfFrom_cons.2 ⟨by omega, hc', hv, hm⟩⟩
    · exact wfFrom_mono hm (by omega)
    · exact wfFrom_cons.2 ⟨hl, ha, hb, by rwa [heq]⟩
    · exact wfFrom_cons.2 ⟨hc, hc', hv, ih hm (by omega)⟩

/-- Read after write: the byte written at its address, what was there at every other. -/
theorem read_writeFrom {m : Memory} {low a : Nat} {b : Byte} (h : Memory.wfFrom low m = true) (x : Nat) :
    (m.write a b).read x = if x = a then b else m.read x := by
  induction m generalizing low with
  | nil =>
    by_cases hb : b = Memory.unlisted <;> by_cases hx : x = a <;>
      simp [Memory.write, Memory.read, hb, hx, eq_comm]
    exact fun h => absurd h.symm hx
  | cons cell m ih =>
    obtain ⟨c, v⟩ := cell
    obtain ⟨-, -, -, hm⟩ := wfFrom_cons.1 h
    unfold Memory.write
    rcases Nat.lt_trichotomy a c with hlt | heq | hgt
    · rw [if_pos hlt]
      by_cases hx : x = a
      · subst hx
        by_cases hb : b = Memory.unlisted
        · have := read_below (wfFrom_mono hm (Nat.le_succ c)) hlt
          simp [hb, Memory.read, hlt.ne', this]
        · simp [hb, Memory.read]
      · by_cases hb : b = Memory.unlisted
        · simp [hb, hx]
        · simp [hb, hx, Memory.read, Ne.symm hx]
    · subst heq
      rw [if_neg (lt_irrefl a), if_pos rfl]
      by_cases hx : x = a
      · subst hx
        by_cases hb : b = Memory.unlisted
        · simp [hb, read_below hm (Nat.lt_succ_self x)]
        · simp [hb, Memory.read]
      · by_cases hb : b = Memory.unlisted <;> simp [hb, hx, Memory.read, Ne.symm hx]
    · rw [if_neg (by omega), if_neg (by omega), Memory.read, Memory.read, ih hm]
      by_cases hx : x = a
      · subst hx
        simp [hgt.ne]
      · by_cases hc : c = x <;> simp [hx, hc]

/-- Every write keeps the canonical form. -/
theorem write_wf {m : Memory} {a : Nat} {b : Byte} (h : m.wf = true) (ha : a < Config.memorySize) :
    (m.write a b).wf = true := wfFrom_write h (Nat.zero_le a) ha

theorem read_write {m : Memory} {a : Nat} {b : Byte} (h : m.wf = true) (x : Nat) :
    (m.write a b).read x = if x = a then b else m.read x := read_writeFrom h x

theorem writeBytes_wf {bs : List Byte} {m : Memory} {a : Nat} (h : m.wf = true)
    (ha : a + bs.length ≤ Config.memorySize) : (m.writeBytes a bs).wf = true := by
  induction bs generalizing m a with
  | nil => exact h
  | cons b bs ih =>
    rw [List.length_cons] at ha
    exact ih (write_wf h (by omega)) (by omega)

/-- After bytes are written from `a` on, each of their addresses reads its byte and every other reads as before. -/
theorem read_writeBytes {bs : List Byte} {m : Memory} {a : Nat} (h : m.wf = true)
    (ha : a + bs.length ≤ Config.memorySize) (x : Nat) :
    (m.writeBytes a bs).read x = if a ≤ x then (bs[x - a]?).getD (m.read x) else m.read x := by
  induction bs generalizing m a with
  | nil => simp [Memory.writeBytes]
  | cons b bs ih =>
    rw [List.length_cons] at ha
    rw [Memory.writeBytes, ih (write_wf h (by omega)) (by omega), read_write h]
    rcases Nat.lt_trichotomy x a with hlt | heq | hgt
    · rw [if_neg (by omega), if_neg (by omega), if_neg (by omega)]
    · subst heq
      simp
    · obtain ⟨d, rfl⟩ := Nat.exists_eq_add_of_lt hgt
      rw [if_pos (by omega), if_neg (by omega), if_pos (by omega), show a + d + 1 - a = d + 1 by omega,
        show a + d + 1 - (a + 1) = d by omega, List.getElem?_cons_succ]

/-- Memories in canonical form from `low` on that read alike are equal. -/
theorem eq_of_readFrom {m m' : Memory} {low : Nat} (h : Memory.wfFrom low m = true) (h' : Memory.wfFrom low m' = true)
    (hr : ∀ x, m.read x = m'.read x) : m = m' := by
  induction m generalizing m' low with
  | nil =>
    cases m' with
    | nil => rfl
    | cons cell m' =>
      obtain ⟨c, v⟩ := cell
      have := hr c
      simp [Memory.read] at this
      exact absurd this.symm (wfFrom_cons.1 h').2.2.1
  | cons cell m ih =>
    obtain ⟨c, v⟩ := cell
    obtain ⟨-, -, hv, hm⟩ := wfFrom_cons.1 h
    cases m' with
    | nil =>
      have := hr c
      simp [Memory.read] at this
      exact absurd this hv
    | cons cell' m' =>
      obtain ⟨c', v'⟩ := cell'
      obtain ⟨-, -, hv', hm'⟩ := wfFrom_cons.1 h'
      have hc : c = c' := by
        rcases Nat.lt_trichotomy c c' with hlt | heq | hgt
        · have := hr c
          rw [Memory.read, if_pos rfl, Memory.read, if_neg (by omega),
            read_below hm' (by omega)] at this
          exact absurd this hv
        · exact heq
        · have := (hr c').symm
          rw [Memory.read, if_pos rfl, Memory.read, if_neg (by omega),
            read_below hm (by omega)] at this
          exact absurd this hv'
      subst hc
      have hvv : v = v' := by simpa [Memory.read] using hr c
      subst hvv
      rw [ih hm hm']
      intro x
      by_cases hx : c = x
      · subst hx
        rw [read_below hm (Nat.lt_succ_self c), read_below hm' (Nat.lt_succ_self c)]
      · simpa [Memory.read, hx] using hr x

/-- Equal memories are equal data. -/
theorem memory_ext {m m' : Memory} (h : m.wf = true) (h' : m'.wf = true) (hr : ∀ x, m.read x = m'.read x) : m = m' :=
  eq_of_readFrom h h' hr

/-- An address outside memory reads as unlisted. -/
theorem read_outside {m : Memory} (h : m.wf = true) {a : Nat} (ha : Config.memorySize ≤ a) :
    m.read a = Memory.unlisted := by
  suffices ∀ low, Memory.wfFrom low m = true → m.read a = Memory.unlisted from this 0 h
  clear h
  induction m with
  | nil => exact fun _ _ => rfl
  | cons cell m ih =>
    obtain ⟨c, v⟩ := cell
    intro low h
    obtain ⟨-, hc, -, hm⟩ := wfFrom_cons.1 h
    rw [Memory.read, if_neg (by omega)]
    exact ih _ hm

theorem reset_wf : State.reset.mem.wf = true := rfl

end Sys2Proof.Machine
end

