-- ==== Sys2Proof/Laws/Ops.lean ====
section
/-! SUPPORT. One spec lemma per shared operation: what it answers and what it does. -/

namespace Sys2Proof.Machine

variable {s t : State}

/-! The index guard -/

theorem regRead_valid (r : Fin Config.numRegs) : regRead r.val s = .ok (s.reg r) := by
  simp [regRead, r.isLt]

theorem regRead_invalid {i : Nat} (h : 15 < i) : regRead i s = .error .registerOverflow := by
  simp [regRead, show ¬ i < Config.numRegs from by simp only [Config.numRegs]; omega]

theorem regWrite_valid (r : Fin Config.numRegs) (v : Word) : regWrite r.val v s = .ok (s.setReg r v) := by
  simp [regWrite, r.isLt]

theorem regWrite_invalid {i : Nat} (v : Word) (h : 15 < i) : regWrite i v s = .error .registerOverflow := by
  simp [regWrite, show ¬ i < Config.numRegs from by simp only [Config.numRegs]; omega]

@[simp] theorem regField_toNat (r : Fin Config.numRegs) : (regField r).toNat = r.val := by
  have : r.val < 16 := r.isLt
  simp only [regField, BitVec.toNat_ofNat]
  omega

/-- A field either names a register or is above 15. -/
theorem field_cases (f : Byte) : (∃ r, f = regField r) ∨ 15 < f.toNat := by
  by_cases h : f.toNat < 16
  · refine .inl ⟨⟨f.toNat, h⟩, ?_⟩
    apply BitVec.eq_of_toNat_eq
    simp
  · exact .inr (by omega)

@[simp] theorem readField_valid (r : Fin Config.numRegs) : readField (regField r) s = .ok (s.reg r) := by
  rw [readField, regField_toNat, regRead_valid]

@[simp] theorem readAddress_valid (r : Fin Config.numRegs) : readAddress (regField r) s = .ok (s.reg r) :=
  readField_valid r

@[simp] theorem writeField_valid (r : Fin Config.numRegs) (v : Word) :
    writeField (regField r) v s = .ok (s.setReg r v) := by
  rw [writeField, regField_toNat, regWrite_valid]

theorem readField_invalid {f : Byte} (h : 15 < f.toNat) : readField f s = .error .registerOverflow :=
  regRead_invalid h

theorem readAddress_invalid {f : Byte} (h : 15 < f.toNat) : readAddress f s = .error .registerOverflow :=
  regRead_invalid h

theorem writeField_invalid {f : Byte} (v : Word) (h : 15 < f.toNat) :
    writeField f v s = .error .registerOverflow := regWrite_invalid v h

@[simp] theorem fieldReg_regField (r : Fin Config.numRegs) : fieldReg (regField r) = [r] := by
  simp [fieldReg]

@[simp] theorem fieldValid_regField (r : Fin Config.numRegs) : fieldValid (regField r) = true := by
  simp [fieldValid]

theorem fieldValid_eq_false {f : Byte} (h : 15 < f.toNat) : fieldValid f = false := by
  simp only [fieldValid, Config.numRegs, decide_eq_false_iff_not]
  omega

/-! check -/

@[simp] theorem check_ok {α : Type} (a : α) (k : α → Outcome) : check (.ok a) s k = k a := rfl

@[simp] theorem check_error {α : Type} (e : ErrorKind) (k : α → Outcome) :
    check (.error e) s k = .next (raise e s) := rfl

/-! Words in memory -/

theorem loadWord_inRange {a : Word} (h : a.toNat + 3 < 4096) :
    loadWord a s = .ok (wordOfBytes (s.byte a.toNat) (s.byte (a.toNat + 1)) (s.byte (a.toNat + 2))
      (s.byte (a.toNat + 3))) := by
  rw [loadWord, if_pos]
  simp only [inRange, Config.memorySize, decide_eq_true_eq]
  omega

theorem loadWord_outside {a : Word} (h : 4096 ≤ a.toNat + 3) : loadWord a s = .error .memoryOverflow := by
  rw [loadWord, if_neg]
  simp only [inRange, Config.memorySize, decide_eq_true_eq]
  omega

theorem storeWord_inRange {a v : Word} (h : a.toNat + 3 < 4096) :
    storeWord a v s = .ok { s with mem := s.mem.writeBytes a.toNat (wordBytes v) } := by
  rw [storeWord, if_pos]
  simp only [inRange, Config.memorySize, decide_eq_true_eq]
  omega

theorem storeWord_outside {a v : Word} (h : 4096 ≤ a.toNat + 3) : storeWord a v s = .error .memoryOverflow := by
  rw [storeWord, if_neg]
  simp only [inRange, Config.memorySize, decide_eq_true_eq]
  omega

/-- What a store that answers has done. -/
theorem storeWord_eq_ok {a v : Word} (h : storeWord a v s = .ok t) :
    a.toNat + 3 < 4096 ∧ t = { s with mem := s.mem.writeBytes a.toNat (wordBytes v) } := by
  by_cases ha : a.toNat + 3 < 4096
  · rw [storeWord_inRange ha] at h
    exact ⟨ha, (Except.ok.inj h).symm⟩
  · rw [storeWord_outside (by omega)] at h
    cases h

@[simp] theorem wordBytes_length (v : Word) : (wordBytes v).length = 4 := rfl

theorem wordOfBytes_wordBytes (v : Word) :
    wordOfBytes (wordByte v 0) (wordByte v 1) (wordByte v 2) (wordByte v 3) = v := by
  unfold wordOfBytes wordByte
  ext i hi
  simp only [BitVec.getElem_or, BitVec.getElem_setWidth, BitVec.getElem_shiftLeft, BitVec.getLsbD_extractLsb']
  rcases Nat.lt_or_ge i 8 with h | h
  · simp [h, show i < 16 by omega, show i < 24 by omega, BitVec.getLsbD_eq_getElem hi]
  rcases Nat.lt_or_ge i 16 with h1 | h1
  · simp [show ¬ i < 8 by omega, h1, show i < 24 by omega, show i - 8 < 8 by omega, show 8 + (i - 8) = i by omega,
      BitVec.getLsbD_eq_getElem hi]
  rcases Nat.lt_or_ge i 24 with h2 | h2
  · simp [show ¬ i < 8 by omega, show ¬ i < 16 by omega, h2, show ¬ i - 8 < 8 by omega, show i - 16 < 8 by omega,
      show 16 + (i - 16) = i by omega, BitVec.getLsbD_eq_getElem hi]
  · simp [show ¬ i < 8 by omega, show ¬ i < 16 by omega, show ¬ i < 24 by omega, show ¬ i - 8 < 8 by omega,
      show ¬ i - 16 < 8 by omega, show i - 24 < 8 by omega, show 24 + (i - 24) = i by omega,
      BitVec.getLsbD_eq_getElem hi]

/-- The word of four bytes, little-endian. -/
theorem wordOfBytes_toNat (b0 b1 b2 b3 : Byte) :
    (wordOfBytes b0 b1 b2 b3).toNat = b0.toNat + 256 * b1.toNat + 65536 * b2.toNat + 16777216 * b3.toNat := by
  have h0 := b0.isLt
  have h1 := b1.isLt
  have h2 := b2.isLt
  have h3 := b3.isLt
  have or_eq : ∀ n x y : Nat, x < 2 ^ n → x ||| y * 2 ^ n = x + y * 2 ^ n := by
    intro n x y hx
    have := Nat.two_pow_add_eq_or_of_lt hx y
    rw [Nat.or_comm, Nat.mul_comm y, ← this, Nat.add_comm]
  simp only [wordOfBytes, BitVec.toNat_or, BitVec.toNat_shiftLeft, BitVec.toNat_setWidth, Nat.shiftLeft_eq]
  rw [Nat.mod_eq_of_lt (by omega : b0.toNat < 2 ^ 32), Nat.mod_eq_of_lt (by omega : b1.toNat < 2 ^ 32),
    Nat.mod_eq_of_lt (by omega : b2.toNat < 2 ^ 32), Nat.mod_eq_of_lt (by omega : b3.toNat < 2 ^ 32),
    Nat.mod_eq_of_lt (by omega : b1.toNat * 2 ^ 8 < 2 ^ 32), Nat.mod_eq_of_lt (by omega : b2.toNat * 2 ^ 16 < 2 ^ 32),
    Nat.mod_eq_of_lt (by omega : b3.toNat * 2 ^ 24 < 2 ^ 32), or_eq 8 _ _ h0, or_eq 16 _ _ (by omega),
    or_eq 24 _ _ (by omega)]
  omega

theorem wordBytes_getElem? (v : Word) {k : Nat} (h : k < 4) : (wordBytes v)[k]? = some (wordByte v k) := by
  rcases k with _ | _ | _ | _ | k <;> first | rfl | omega

theorem wordByte_toNat (v : Word) (k : Nat) : (wordByte v k).toNat = v.toNat / 2 ^ (8 * k) % 2 ^ 8 := by
  simp [wordByte, Nat.shiftRight_eq_div_pow]

/-- Memory after a word is put at `a`: its four bytes there, and what was there elsewhere. -/
theorem read_writeWord {m : Memory} {a : Nat} {v : Word} (hw : m.wf = true) (h : a + 3 < 4096) (x : Nat) :
    (m.writeBytes a (wordBytes v)).read x = if a ≤ x ∧ x < a + 4 then wordByte v (x - a) else m.read x := by
  rw [read_writeBytes hw (by rw [wordBytes_length]; simp only [Config.memorySize]; omega)]
  by_cases h1 : a ≤ x
  · by_cases h2 : x < a + 4
    · rw [if_pos h1, if_pos ⟨h1, h2⟩, wordBytes_getElem? _ (by omega), Option.getD_some]
    · rw [if_pos h1, if_neg (by omega), List.getElem?_eq_none (by rw [wordBytes_length]; omega), Option.getD_none]
  · rw [if_neg h1, if_neg (by omega)]

theorem writeWord_wf {m : Memory} {a : Nat} {v : Word} (hw : m.wf = true) (h : a + 3 < 4096) :
    (m.writeBytes a (wordBytes v)).wf = true :=
  writeBytes_wf hw (by rw [wordBytes_length]; simp only [Config.memorySize]; omega)

/-! Emit -/

theorem emit_accept {codes : List Byte} (h : s.sink.next = .accept) :
    emit codes s = { s with out := s.out ++ codes, sink := s.sink.advance } := by
  rw [emit, h]

theorem emit_reject {codes : List Byte} {kept : Nat} (h : s.sink.next = .reject kept) :
    emit codes s = raise .outputError { s with out := s.out ++ codes.take kept, sink := s.sink.advance } := by
  rw [emit, h]

/-- Everything an offer can do to the log and the run state. -/
theorem emit_effect (codes : List Byte) (s : State) :
    (∃ taken, (emit codes s).out = s.out ++ taken ∧ taken.length ≤ codes.length) ∧
      ((emit codes s).run = s.run ∨ (emit codes s).run = .faulted .outputError) := by
  unfold emit
  split
  · exact ⟨⟨codes, rfl, le_rfl⟩, .inl rfl⟩
  · exact ⟨⟨_, rfl, List.length_take_le' _ _⟩, .inr rfl⟩

end Sys2Proof.Machine
end

