-- ==== Sys2Proof/Laws/Decode.lean ====
section
/-! SUPPORT. The opcode map, the lengths, and what the decoder answers for the bytes a fetch finds. -/

namespace Sys2Proof

theorem length_pos (o : Opcode) : 1 ≤ o.length := by cases o <;> decide

theorem length_le_max (o : Opcode) : o.length ≤ maxLength := by cases o <;> decide

@[simp] theorem ofByte?_toByte (o : Opcode) : Opcode.ofByte? o.toByte = some o := by cases o <;> decide

theorem ofByte?_eq_some {b : Byte} {o : Opcode} (h : Opcode.ofByte? b = some o) : b = o.toByte := by
  revert b o
  decide

/-- No opcode stands for 0x00 and 0x09 to 0xFF, and every other byte is one. -/
theorem ofByte?_eq_none {b : Byte} : Opcode.ofByte? b = none ↔ b.toNat = 0 ∨ 9 ≤ b.toNat := by
  revert b
  decide

@[simp] theorem encode_length (i : Instr) : (encode i).length = i.length := by cases i <;> rfl

theorem encode_head (i : Instr) : ∃ operands, encode i = i.opcode.toByte :: operands := by cases i <;> exact ⟨_, rfl⟩

theorem instr_length_pos (i : Instr) : 1 ≤ i.length := length_pos i.opcode

theorem instr_length_le (i : Instr) : i.length ≤ 4 := length_le_max i.opcode

/-- The decoder answers an instruction exactly where the operands are all at hand. -/
theorem decodeOperands_cases (o : Opcode) (bytes : List Byte) :
    (∃ i rest, decodeOperands o bytes = .ok (i, rest) ∧ i.opcode = o ∧ o.length ≤ bytes.length + 1) ∨
      (decodeOperands o bytes = .error (.truncated o) ∧ bytes.length + 1 < o.length) := by
  cases o <;> rcases bytes with _ | ⟨a, _ | ⟨b, _ | ⟨c, rest⟩⟩⟩ <;>
    simp [decodeOperands, Opcode.length, Instr.opcode]

/-- What the decoder answers, by the length of the bytes and the first of them. -/
theorem decode_cons_none {op : Byte} (h : Opcode.ofByte? op = none) (bytes : List Byte) :
    decode (op :: bytes) = .error (.illegalOpcode op) := by
  simp [decode, h]

theorem decode_cons_some {op : Byte} {o : Opcode} (h : Opcode.ofByte? op = some o) (bytes : List Byte) :
    decode (op :: bytes) = decodeOperands o bytes := by
  simp [decode, h]

end Sys2Proof
end

