-- ==== Sys2Proof/Laws/Fetch.lean ====
section
/-! SUPPORT. The bytes a fetch finds and what phases F0 to F4 come to. -/

namespace Sys2Proof.Machine

variable {s t : State}

@[simp] theorem bytes_length (s : State) (a n : Nat) : (s.bytes a n).length = n := by simp [State.bytes]

theorem bytes_getElem? (s : State) (a n k : Nat) : (s.bytes a n)[k]? = if k < n then some (s.byte (a + k)) else none := by
  by_cases h : k < n <;> simp [State.bytes, h]

theorem bytes_succ (s : State) (a n : Nat) : s.bytes a (n + 1) = s.byte a :: s.bytes (a + 1) n := by
  simp only [State.bytes, List.range_succ_eq_map, List.map_cons, List.map_map, Nat.add_zero]
  refine congrArg _ (List.map_congr_left fun k _ => ?_)
  simp only [Function.comp, Nat.add_right_comm, Nat.succ_eq_add_one, Nat.add_assoc]

theorem bytes_add (s : State) (a m n : Nat) : s.bytes a (m + n) = s.bytes a m ++ s.bytes (a + m) n := by
  induction m generalizing a with
  | zero => simp [State.bytes]
  | succ m ih =>
    rw [show m + 1 + n = m + n + 1 by omega, bytes_succ, bytes_succ, ih, List.cons_append,
      show a + 1 + m = a + (m + 1) by omega]

/-- Bytes depend on memory alone. -/
theorem bytes_congr {s s' : State} {a n : Nat} (h : ∀ k, k < n → s'.byte (a + k) = s.byte (a + k)) :
    s'.bytes a n = s.bytes a n :=
  List.map_congr_left fun k hk => h k (List.mem_range.1 hk)

theorem fetchWindow_eq_nil (h : 4096 ≤ s.ip.toNat) : s.fetchWindow = [] := by
  rw [State.fetchWindow, show min maxLength (Config.memorySize - s.ip.toNat) = 0 by
    simp only [Config.memorySize]; omega]
  rfl

/-- Inside memory the window begins with the opcode byte and ends at the end of memory or after four bytes. -/
theorem fetchWindow_eq_cons (h : s.ip.toNat < 4096) :
    s.fetchWindow = s.byte s.ip.toNat :: s.bytes (s.ip.toNat + 1) (min 3 (4095 - s.ip.toNat)) := by
  rw [State.fetchWindow, show min maxLength (Config.memorySize - s.ip.toNat) = min 3 (4095 - s.ip.toNat) + 1 by
    simp only [Config.memorySize, maxLength]; omega, bytes_succ]

/-- F0: outside memory. -/
theorem fetch_outside (h : 4096 ≤ s.ip.toNat) : fetch s = .raised (pinFault s) := by
  rw [fetch, fetchWindow_eq_nil h]
  rfl

/-- F1: an illegal opcode. -/
theorem fetch_illegal (h : s.ip.toNat < 4096) (ho : Opcode.ofByte? (s.byte s.ip.toNat) = none) :
    fetch s = .raised (raise .instructionError (s.setIp (s.ip + 1))) := by
  rw [fetch, fetchWindow_eq_cons h, decode_cons_none ho]
  rfl

/-- F2 to F4: a defined opcode is fetched where the instruction lies inside memory, and pins IP where it does not. -/
theorem fetch_defined {o : Opcode} (h : s.ip.toNat < 4096) (ho : Opcode.ofByte? (s.byte s.ip.toNat) = some o) :
    (∃ i rest, decode s.fetchWindow = .ok (i, rest) ∧ fetch s = .instr i (advanceIp i s) ∧ i.opcode = o ∧
        s.ip.toNat + i.length ≤ 4096) ∨
      (decode s.fetchWindow = .error (.truncated o) ∧ fetch s = .raised (pinFault s) ∧
        4096 < s.ip.toNat + o.length) := by
  have hw := fetchWindow_eq_cons h
  have hmax := length_le_max o
  simp only [maxLength] at hmax
  rcases decodeOperands_cases o (s.bytes (s.ip.toNat + 1) (min 3 (4095 - s.ip.toNat))) with
    ⟨i, rest, hd, hi, hl⟩ | ⟨hd, hl⟩ <;> rw [bytes_length] at hl
  · have hdec : decode s.fetchWindow = .ok (i, rest) := by rw [hw, decode_cons_some ho, hd]
    refine .inl ⟨i, rest, hdec, ?_, hi, ?_⟩
    · rw [fetch, hdec]
    · rw [Instr.length, hi]
      omega
  · have hdec : decode s.fetchWindow = .error (.truncated o) := by rw [hw, decode_cons_some ho, hd]
    refine .inr ⟨hdec, ?_, by omega⟩
    rw [fetch, hdec]
    rfl

/-- Every fetch is one of these four. -/
theorem fetch_cases (s : State) :
    (4096 ≤ s.ip.toNat ∧ fetch s = .raised (pinFault s)) ∨
    (s.ip.toNat < 4096 ∧ Opcode.ofByte? (s.byte s.ip.toNat) = none ∧
      fetch s = .raised (raise .instructionError (s.setIp (s.ip + 1)))) ∨
    (s.ip.toNat < 4096 ∧ (∃ o, Opcode.ofByte? (s.byte s.ip.toNat) = some o ∧ 4096 < s.ip.toNat + o.length) ∧
      fetch s = .raised (pinFault s)) ∨
    (∃ i rest, Opcode.ofByte? (s.byte s.ip.toNat) = some i.opcode ∧ s.ip.toNat + i.length ≤ 4096 ∧
      decode s.fetchWindow = .ok (i, rest) ∧ fetch s = .instr i (advanceIp i s)) := by
  by_cases h : s.ip.toNat < 4096
  · rcases ho : Opcode.ofByte? (s.byte s.ip.toNat) with _ | o
    · exact .inr (.inl ⟨h, rfl, fetch_illegal h ho⟩)
    · rcases fetch_defined h ho with ⟨i, rest, hd, hf, hi, hl⟩ | ⟨-, hf, hl⟩
      · exact .inr (.inr (.inr ⟨i, rest, by rw [hi], hl, hd, hf⟩))
      · exact .inr (.inr (.inl ⟨h, ⟨o, rfl, hl⟩, hf⟩))
  · exact .inl ⟨by omega, fetch_outside (by omega)⟩

/-- Bytes that decode are fetched, and the instruction lies inside memory. -/
theorem fetch_of_decode {i : Instr} {rest : List Byte} (h : decode s.fetchWindow = .ok (i, rest)) :
    fetch s = .instr i (advanceIp i s) ∧ s.ip.toNat + i.length ≤ 4096 := by
  have hf : fetch s = .instr i (advanceIp i s) := by rw [fetch, h]
  refine ⟨hf, ?_⟩
  rcases fetch_cases s with ⟨_, e⟩ | ⟨_, _, e⟩ | ⟨_, _, e⟩ | ⟨j, r, _, hl, _, e⟩ <;> rw [e] at hf <;> cases hf
  exact hl

/-- Bytes of an instruction's length that stand at IP, inside memory, begin the window of the fetch. -/
theorem fetchWindow_of_atIp {i : Instr} (h : s.AtIp (encode i)) : ∃ rest, s.fetchWindow = encode i ++ rest := by
  obtain ⟨hl, hb⟩ := h
  rw [encode_length] at hl hb
  have := instr_length_le i
  obtain ⟨d, hd⟩ := Nat.exists_eq_add_of_le (show i.length ≤ min maxLength (Config.memorySize - s.ip.toNat) by
    simp only [maxLength, Config.memorySize] at *; omega)
  exact ⟨s.bytes (s.ip.toNat + i.length) d, by rw [State.fetchWindow, hd, bytes_add, hb]⟩

/-- What a raise of the fetch leaves untouched. -/
theorem fetch_raised_fields (hf : fetch s = .raised t) : t.out = s.out ∧ t.mem = s.mem ∧ t.sink = s.sink := by
  rcases fetch_cases s with ⟨_, e⟩ | ⟨_, _, e⟩ | ⟨_, _, e⟩ | ⟨_, _, _, _, _, e⟩ <;> rw [e] at hf <;> cases hf <;>
    exact ⟨rfl, rfl, rfl⟩

/-- The IP advance of an instruction that lies inside memory does not overflow. -/
theorem advance_toNat {i : Instr} (h : s.ip.toNat + i.length ≤ 4096) :
    (s.ip + BitVec.ofNat 32 i.length).toNat = s.ip.toNat + i.length := by
  have := instr_length_le i
  rw [BitVec.toNat_add, BitVec.toNat_ofNat]
  omega

/-! The step -/

theorem step_of_instr {i : Instr} (hr : s.run = .running) (h : fetch s = .instr i t) : step s = exec i t := by
  rw [step, hr]
  simp only [h]

theorem step_of_raised (hr : s.run = .running) (h : fetch s = .raised t) : step s = .next t := by
  rw [step, hr]
  simp only [h]

/-- What a step is, in each state: nothing in a terminal state, else what its fetch comes to. -/
theorem step_cases (s : State) :
    (s.run ≠ .running ∧ step s = .next s) ∨
    (s.run = .running ∧ ∃ t, fetch s = .raised t ∧ step s = .next t) ∨
    (s.run = .running ∧ ∃ i t, fetch s = .instr i t ∧ step s = exec i t) := by
  rcases hr : s.run with _ | _ | e
  · rcases hf : fetch s with ⟨i, t⟩ | t
    · exact .inr (.inr ⟨rfl, i, t, rfl, step_of_instr hr hf⟩)
    · exact .inr (.inl ⟨rfl, t, rfl, step_of_raised hr hf⟩)
  · exact .inl ⟨by simp, by rw [step, hr]; rfl⟩
  · exact .inl ⟨by simp, by rw [step, hr]; rfl⟩

end Sys2Proof.Machine
end

