-- ==== Sys2Proof/Laws/Operands.lean ====
section
/-! SUPPORT. The values the handlers compute: the sign-extended immediate, the wrapped difference, the signed reading of a
word, and the decimal digits. -/

namespace Sys2Proof.Machine

theorem imm16_eq_append (lo hi : Byte) : imm16 lo hi = (hi ++ lo : BitVec 16) := by
  unfold imm16
  ext i hi'
  simp only [BitVec.getElem_or, BitVec.getElem_setWidth, BitVec.getElem_shiftLeft]
  rw [BitVec.getElem_append]
  by_cases h : i < 8
  · simp [h]
  · simp [h, BitVec.getLsbD_of_ge lo i (by omega), BitVec.getLsbD_eq_getElem (show i - 8 < 8 by omega)]

theorem imm16_toNat (lo hi : Byte) : (imm16 lo hi).toNat = 256 * hi.toNat + lo.toNat := by
  have h := Nat.two_pow_add_eq_or_of_lt lo.isLt hi.toNat
  rw [imm16_eq_append, BitVec.toNat_append, Nat.shiftLeft_eq, Nat.mul_comm, ← h]

/-- The immediate as a number: the upper 16 bits copy bit 15. -/
theorem immediate_toNat (lo hi : Byte) :
    (immediate lo hi).toNat = (if hi.toNat < 0x80 then 0 else 0xFFFF0000) + 256 * hi.toNat + lo.toNat := by
  have hl := lo.isLt
  have hh := hi.isLt
  have hn := imm16_toNat lo hi
  have hm : (imm16 lo hi).msb = decide (0x80 ≤ hi.toNat) := by
    rw [BitVec.msb_eq_decide, hn]
    simp only [decide_eq_decide]
    omega
  rw [immediate, BitVec.toNat_signExtend, BitVec.toNat_setWidth, hm, hn]
  by_cases h : hi.toNat < 0x80
  · simp [h, show ¬ 0x80 ≤ hi.toNat by omega]
    omega
  · simp [h, show 0x80 ≤ hi.toNat by omega]
    omega

/-- The difference as a number, taken modulo 2^32 from the exact one. -/
theorem subtract_toNat (a b : Word) : ((subtract a b).toNat : Int) = ((a.toNat : Int) - (b.toNat : Int)) % 2 ^ 32 := by
  rw [subtract, wrap32, BitVec.toNat_ofInt]
  have := Int.emod_nonneg ((a.toNat : Int) - (b.toNat : Int)) (show (2 ^ 32 : Int) ≠ 0 by decide)
  norm_num at this ⊢
  omega

theorem subtract_eq (a b : Word) : subtract a b = a - b := by
  have h := subtract_toNat a b
  have ha := a.isLt
  have hb := b.isLt
  apply BitVec.eq_of_toNat_eq
  rw [BitVec.toNat_sub]
  omega

theorem signed32_eq_toInt (v : Word) : signed32 v = v.toInt := by
  have := v.isLt
  rw [signed32, BitVec.toInt_eq_toNat_cond]
  split_ifs <;> omega

theorem signed32_natAbs_le (v : Word) : (signed32 v).natAbs ≤ 2 ^ 31 := by
  have := v.isLt
  rw [signed32]
  split_ifs <;> omega

/-! Digits -/

theorem digitCode_toNat {d : Nat} (h : d < 10) : (digitCode d).toNat = 0x30 + d := by
  rw [digitCode, BitVec.toNat_ofNat]
  omega

/-- More fuel than the number changes nothing. -/
theorem digitsWithin_stable {n f g : Nat} (hf : n < f) (hg : n < g) : digitsWithin f n = digitsWithin g n := by
  induction f generalizing n g with
  | zero => omega
  | succ f ih =>
    cases g with
    | zero => omega
    | succ g =>
      rw [digitsWithin, digitsWithin]
      split_ifs with h
      · rfl
      · rw [ih (g := g) (by omega) (by omega)]

theorem digits_small {n : Nat} (h : n < 10) : digits n = [digitCode n] := by
  rw [digits, digitsWithin, if_pos h]

/-- The digits of `n` are those of `n / 10` and then the last one. -/
theorem digits_large {n : Nat} (h : 10 ≤ n) : digits n = digits (n / 10) ++ [digitCode (n % 10)] := by
  rw [digits, digitsWithin, if_neg (by omega), digits, digitsWithin_stable (g := n / 10 + 1) (by omega) (by omega)]

theorem digits_length_le {n k : Nat} (h : n < 10 ^ k) (hk : 1 ≤ k) : (digits n).length ≤ k := by
  induction k generalizing n with
  | zero => omega
  | succ k ih =>
    by_cases hn : n < 10
    · rw [digits_small hn]
      simp
    · have hk' : 1 ≤ k := by
        rcases k with _ | k
        · simp at h
          omega
        · omega
      rw [digits_large (by omega), List.length_append, List.length_singleton]
      have := ih (n := n / 10) (by rw [Nat.pow_succ] at h; omega) hk'
      omega

theorem digits_length_pos (n : Nat) : 1 ≤ (digits n).length := by
  by_cases h : n < 10
  · simp [digits_small h]
  · simp [digits_large (by omega : 10 ≤ n)]

/-- A decimal text of a register is 1 to 11 codes long (R111, R137). -/
theorem dec_length (v : Word) : 1 ≤ (dec (signed32 v)).length ∧ (dec (signed32 v)).length ≤ 11 := by
  have h1 := digits_length_pos (signed32 v).natAbs
  have h2 := digits_length_le (n := (signed32 v).natAbs) (k := 10) (by have := signed32_natAbs_le v; omega) (by omega)
  rw [dec]
  split_ifs
  · rw [List.length_cons]
    omega
  · omega

end Sys2Proof.Machine
end

