-- ==== Sys2Proof/Laws/Exec.lean ====
section
/-! SUPPORT. What a handler can do, said once: `exec_cases`. Every invariant and frame follows from it. -/

namespace Sys2Proof.Machine

variable {s t : State}

/-- A checked primitive that answers a state: the primitive's value and what follows, or its error. -/
theorem check_eq_next {α : Type} {r : Except ErrorKind α} {k : α → Outcome} (h : check r s k = .next t) :
    (∃ a, r = .ok a ∧ k a = .next t) ∨ (∃ e, r = .error e ∧ t = raise e s) := by
  rcases r with e | a
  · exact .inr ⟨e, rfl, (Host.Outcome.next.inj h).symm⟩
  · exact .inl ⟨a, rfl, h⟩

/-- What reading a field answers. -/
theorem readField_cases (f : Byte) (s : State) :
    (∃ r, f = regField r ∧ readField f s = .ok (s.reg r)) ∨
      (15 < f.toNat ∧ readField f s = .error .registerOverflow) := by
  rcases field_cases f with ⟨r, rfl⟩ | h
  · exact .inl ⟨r, rfl, readField_valid r⟩
  · exact .inr ⟨h, readField_invalid h⟩

/-- What writing a field answers. -/
theorem writeField_cases (f : Byte) (v : Word) (s : State) :
    (∃ r, f = regField r ∧ writeField f v s = .ok (s.setReg r v)) ∨
      (15 < f.toNat ∧ writeField f v s = .error .registerOverflow) := by
  rcases field_cases f with ⟨r, rfl⟩ | h
  · exact .inl ⟨r, rfl, writeField_valid r v⟩
  · exact .inr ⟨h, writeField_invalid v h⟩

/-- The effects a handler can have on the state it is run in. -/
inductive Effect (i : Instr) (s : State) : State → Prop where
  /-- Nothing (`move_if` with a false condition). -/
  | same (hi : i.opcode = .moveIf) : Effect i s s
  /-- A register field above 15 is used. -/
  | badField (hi : i.fieldsValid = false) : Effect i s (raise .registerOverflow s)
  /-- A word access outside memory. -/
  | badAddress (hi : i.opcode = .store ∨ i.opcode = .load) : Effect i s (raise .memoryOverflow s)
  /-- The destination register is written. -/
  | wrote (r : Fin Config.numRegs) (v : Word)
      (hi : (∃ x y, i = .moveIf (regField r) x y ∨ i = .loadimm (regField r) x y ∨ i = .sub (regField r) x y) ∨
        ∃ x, i = .load (regField r) x) : Effect i s (s.setReg r v)
  /-- A word is stored at the value of the address register. -/
  | stored (r q : Fin Config.numRegs) (hi : i = .store (regField r) (regField q)) (ha : (s.reg r).toNat + 3 < 4096) :
      Effect i s { s with mem := s.mem.writeBytes (s.reg r).toNat (wordBytes (s.reg q)) }
  /-- Codes are offered to the sink. -/
  | offered (r : Fin Config.numRegs) (codes : List Byte) (hi : i = .out (regField r) ∨ i = .outNumber (regField r))
      (hc : 1 ≤ codes.length ∧ codes.length ≤ 11) : Effect i s (emit codes s)
  /-- The machine halts. -/
  | halted (hi : i = .exit) : Effect i s { s with run := .halted }

/-- Everything a handler can do: it answers a state, and that state is one of the effects. -/
theorem exec_effect (i : Instr) (s : State) : ∃ t, exec i s = .next t ∧ Effect i s t := by
  have invalid : ∀ {f : Byte}, 15 < f.toNat → f ∈ i.regFields → i.fieldsValid = false := by
    intro f hf hm
    rw [Instr.fieldsValid, List.all_eq_false]
    exact ⟨f, hm, by simp [fieldValid_eq_false hf]⟩
  cases i with
  | moveIf rd rs1 rs2 =>
    rcases readField_cases rs2 s with ⟨r2, rfl, h2⟩ | ⟨hb, h2⟩
    · by_cases hc : nonZero (s.reg r2)
      · rcases readField_cases rs1 s with ⟨r1, rfl, h1⟩ | ⟨hb, h1⟩
        · rcases writeField_cases rd (s.reg r1) s with ⟨r, rfl, h⟩ | ⟨hb, h⟩
          · exact ⟨_, by simp only [exec, execMoveIf, h2, h1, h, check_ok, hc, if_true],
              .wrote r (s.reg r1) (.inl ⟨_, _, .inl rfl⟩)⟩
          · exact ⟨_, by simp only [exec, execMoveIf, h2, h1, h, check_ok, check_error, hc, if_true],
              .badField (invalid hb (by simp [Instr.regFields]))⟩
        · exact ⟨_, by simp only [exec, execMoveIf, h2, h1, check_ok, check_error, hc, if_true],
            .badField (invalid hb (by simp [Instr.regFields]))⟩
      · exact ⟨_, by simp only [exec, execMoveIf, h2, check_ok, if_neg hc], .same rfl⟩
    · exact ⟨_, by simp only [exec, execMoveIf, h2, check_error],
        .badField (invalid hb (by simp [Instr.regFields]))⟩
  | store rs1 rs2 =>
    rcases readField_cases rs1 s with ⟨r1, rfl, h1⟩ | ⟨hb, h1⟩
    · rcases readField_cases rs2 s with ⟨r2, rfl, h2⟩ | ⟨hb, h2⟩
      · by_cases ha : (s.reg r1).toNat + 3 < 4096
        · exact ⟨_, by simp only [exec, execStore, readAddress, h1, h2, check_ok, storeWord_inRange ha],
            .stored r1 r2 rfl ha⟩
        · exact ⟨_, by simp only [exec, execStore, readAddress, h1, h2, check_ok, check_error,
            storeWord_outside (Nat.le_of_not_lt ha)], .badAddress (.inl rfl)⟩
      · exact ⟨_, by simp only [exec, execStore, readAddress, h1, h2, check_ok, check_error],
          .badField (invalid hb (by simp [Instr.regFields]))⟩
    · exact ⟨_, by simp only [exec, execStore, readAddress, h1, check_error],
        .badField (invalid hb (by simp [Instr.regFields]))⟩
  | load rs1 rs2 =>
    rcases readField_cases rs2 s with ⟨r2, rfl, h2⟩ | ⟨hb, h2⟩
    · by_cases ha : (s.reg r2).toNat + 3 < 4096
      · obtain ⟨w, hl⟩ : ∃ w, loadWord (s.reg r2) s = .ok w := ⟨_, loadWord_inRange ha⟩
        rcases writeField_cases rs1 w s with ⟨r, rfl, h⟩ | ⟨hb, h⟩
        · exact ⟨_, by simp only [exec, execLoad, readAddress, h2, hl, h, check_ok], .wrote r w (.inr ⟨_, rfl⟩)⟩
        · exact ⟨_, by simp only [exec, execLoad, readAddress, h2, hl, h, check_ok, check_error],
            .badField (invalid hb (by simp [Instr.regFields]))⟩
      · exact ⟨_, by simp only [exec, execLoad, readAddress, h2, check_ok, check_error,
          loadWord_outside (Nat.le_of_not_lt ha)], .badAddress (.inr rfl)⟩
    · exact ⟨_, by simp only [exec, execLoad, readAddress, h2, check_error],
        .badField (invalid hb (by simp [Instr.regFields]))⟩
  | loadimm rd lo hi =>
    rcases writeField_cases rd (immediate lo hi) s with ⟨r, rfl, h⟩ | ⟨hb, h⟩
    · exact ⟨_, by simp only [exec, execLoadimm, h, check_ok], .wrote r (immediate lo hi) (.inl ⟨_, _, .inr (.inl rfl)⟩)⟩
    · exact ⟨_, by simp only [exec, execLoadimm, h, check_error],
        .badField (invalid hb (by simp [Instr.regFields]))⟩
  | sub rd rs1 rs2 =>
    rcases readField_cases rs1 s with ⟨r1, rfl, h1⟩ | ⟨hb, h1⟩
    · rcases readField_cases rs2 s with ⟨r2, rfl, h2⟩ | ⟨hb, h2⟩
      · rcases writeField_cases rd (subtract (s.reg r1) (s.reg r2)) s with ⟨r, rfl, h⟩ | ⟨hb, h⟩
        · exact ⟨_, by simp only [exec, execSub, h1, h2, h, check_ok],
            .wrote r (subtract (s.reg r1) (s.reg r2)) (.inl ⟨_, _, .inr (.inr rfl)⟩)⟩
        · exact ⟨_, by simp only [exec, execSub, h1, h2, h, check_ok, check_error],
            .badField (invalid hb (by simp [Instr.regFields]))⟩
      · exact ⟨_, by simp only [exec, execSub, h1, h2, check_ok, check_error],
          .badField (invalid hb (by simp [Instr.regFields]))⟩
    · exact ⟨_, by simp only [exec, execSub, h1, check_error],
        .badField (invalid hb (by simp [Instr.regFields]))⟩
  | out rs1 =>
    rcases readField_cases rs1 s with ⟨r1, rfl, h1⟩ | ⟨hb, h1⟩
    · exact ⟨_, by simp only [exec, execOut, h1, check_ok], .offered r1 [lowCode (s.reg r1)] (.inl rfl) (by simp)⟩
    · exact ⟨_, by simp only [exec, execOut, h1, check_error],
        .badField (invalid hb (by simp [Instr.regFields]))⟩
  | exit => exact ⟨_, rfl, .halted rfl⟩
  | outNumber rs1 =>
    rcases readField_cases rs1 s with ⟨r1, rfl, h1⟩ | ⟨hb, h1⟩
    · exact ⟨_, by simp only [exec, execOutNumber, h1, check_ok],
        .offered r1 (dec (signed32 (s.reg r1))) (.inr rfl) (dec_length (s.reg r1))⟩
    · exact ⟨_, by simp only [exec, execOutNumber, h1, check_error],
        .badField (invalid hb (by simp [Instr.regFields]))⟩

/-- The inversion of `exec`: a state it answers is one of its effects. -/
theorem exec_cases {i : Instr} (h : exec i s = .next t) : Effect i s t := by
  obtain ⟨u, hu, he⟩ := exec_effect i s
  rw [hu] at h
  exact Host.Outcome.next.inj h ▸ he

/-- Where a handler changes memory it keeps the canonical form. -/
theorem Effect.mem_wf {i : Instr} (h : Effect i s t) (hw : s.mem.wf = true) : t.mem.wf = true := by
  cases h <;> try exact hw
  · exact writeWord_wf hw ‹_›
  · rwa [emit_mem]

/-- A handler that leaves RUNNING leaves IP as the advance set it: no register is written before a raise or a halt. -/
theorem Effect.ip_of_run_ne {i : Instr} (h : Effect i s t) (hr : t.run ≠ s.run) : t.ip = s.ip := by
  cases h <;> first | rfl | exact absurd rfl hr | exact emit_ip s _

end Sys2Proof.Machine
end

