-- ==== Sys2Proof/Laws/HostPort.lean ====
section
/-! SUPPORT. What construction answers, and the bytes an image leaves in memory. -/

namespace Sys2Proof.Machine

/-- The memory of an image. -/
abbrev imageMemory (image : List Byte) : Memory := Memory.writeBytes [] 0 image

theorem construct_fits {image : List Byte} (h : image.length ≤ 4096) :
    construct image = .ok { State.reset with mem := imageMemory image } := by
  rw [construct, if_pos h]

theorem construct_tooLong {image : List Byte} (h : 4096 < image.length) : construct image = .error .memoryOverflow := by
  rw [construct, if_neg (Nat.not_le.2 h)]

/-- A machine that was constructed: the image fits, and every part of the state is known. -/
theorem construct_eq_ok {image : List Byte} {s : State} (h : construct image = .ok s) :
    image.length ≤ 4096 ∧ s.mem = imageMemory image ∧ (∀ r, s.reg r = 0) ∧ s.ip = 0 ∧ s.run = .running ∧
      s.out = [] ∧ s.sink = State.reset.sink := by
  by_cases hl : image.length ≤ 4096
  · rw [construct_fits hl] at h
    cases h
    exact ⟨hl, rfl, fun r => reset_reg r, reset_ip, rfl, rfl, rfl⟩
  · rw [construct_tooLong (by omega)] at h
    cases h

theorem imageMemory_wf {image : List Byte} (h : image.length ≤ 4096) : (imageMemory image).wf = true :=
  writeBytes_wf (m := []) reset_wf (by simpa using h)

theorem read_imageMemory {image : List Byte} (h : image.length ≤ 4096) (a : Nat) :
    (imageMemory image).read a = (image[a]?).getD 0 := by
  rw [imageMemory, read_writeBytes (m := []) reset_wf (by simpa using h), if_pos (Nat.zero_le a), Nat.sub_zero]
  rfl

@[simp] theorem tableBytes_length (nbits w : Nat) : (tableBytes nbits w).length = 4 := by simp [tableBytes]

end Sys2Proof.Machine
end

