-- ==== Sys2Proof/Laws/PerInstr.lean ====
section
/-! SUPPORT. The family EncodeShape: for every instruction, its encoding begins with its opcode byte, has the length of its
opcode and is followed by its operand bytes, the register fields among them (R60, R62, R64). -/

namespace Sys2Proof.Laws.EncodeShape

/-- The shape of one instruction's encoding. -/
def Statement (i : Instr) : Prop :=
  (encode i).head? = some i.opcode.toByte ∧ (encode i).length = i.length ∧ i.length ≤ maxLength ∧
    ∀ f ∈ i.regFields, f ∈ (encode i).tail

theorem moveIf (rd rs1 rs2 : Byte) : Statement (.moveIf rd rs1 rs2) := by
  simp [Statement, encode, Instr.opcode, Opcode.toByte, Instr.length, Opcode.length, Instr.regFields, maxLength]

theorem store (rs1 rs2 : Byte) : Statement (.store rs1 rs2) := by
  simp [Statement, encode, Instr.opcode, Opcode.toByte, Instr.length, Opcode.length, Instr.regFields, maxLength]

theorem load (rs1 rs2 : Byte) : Statement (.load rs1 rs2) := by
  simp [Statement, encode, Instr.opcode, Opcode.toByte, Instr.length, Opcode.length, Instr.regFields, maxLength]

theorem loadimm (rd lo hi : Byte) : Statement (.loadimm rd lo hi) := by
  simp [Statement, encode, Instr.opcode, Opcode.toByte, Instr.length, Opcode.length, Instr.regFields, maxLength]

theorem sub (rd rs1 rs2 : Byte) : Statement (.sub rd rs1 rs2) := by
  simp [Statement, encode, Instr.opcode, Opcode.toByte, Instr.length, Opcode.length, Instr.regFields, maxLength]

theorem out (rs1 : Byte) : Statement (.out rs1) := by
  simp [Statement, encode, Instr.opcode, Opcode.toByte, Instr.length, Opcode.length, Instr.regFields, maxLength]

theorem exit : Statement .exit := by
  simp [Statement, encode, Instr.opcode, Opcode.toByte, Instr.length, Opcode.length, Instr.regFields, maxLength]

theorem outNumber (rs1 : Byte) : Statement (.outNumber rs1) := by
  simp [Statement, encode, Instr.opcode, Opcode.toByte, Instr.length, Opcode.length, Instr.regFields, maxLength]

end Sys2Proof.Laws.EncodeShape
end

