-- ==== Sys2Proof/Tests/Slice0.lean ====
section
/-! SUPPORT. The model's own tests. Part 1: what is ill formed is refused. Part 2: words written out from R64 decode. Part 3:
at most two single steps an instruction, each expected result taken from a vector of spec/95 (its id in the docstring).
Part 4: for each statement with hypotheses a state and operands that meet all of them, at the boundary of each clause. -/

namespace Sys2Proof.Machine.Tests

/-- A running machine with IP `p` and these bytes from `p` on. -/
def machine (p : Nat) (bytes : List Byte) : State :=
  { State.reset.setIp (BitVec.ofNat 32 p) with mem := Memory.writeBytes [] p bytes }

/-- What a step leaves of one field of the state. -/
def after {α : Type} (field : State → α) (s : State) : Option α :=
  match step s with
  | .next t => some (field t)
  | .fault _ => none
  | .refused _ => none

/-- The state after a step (the state itself where there is none). -/
def stepped (s : State) : State :=
  match step s with
  | .next t => t
  | .fault _ => s
  | .refused _ => s

/-! Part 1: well-formedness -/

theorem test_field_above_15_refused : fieldValid 16 = false := by decide
theorem test_field_15_valid : fieldValid 15 = true := by decide
theorem test_moveIf_bad_rd : (Instr.moveIf 16 1 2).fieldsValid = false := by decide
theorem test_moveIf_bad_rs1 : (Instr.moveIf 1 16 2).fieldsValid = false := by decide
theorem test_moveIf_bad_rs2 : (Instr.moveIf 1 2 16).fieldsValid = false := by decide
theorem test_store_bad_rs1 : (Instr.store 16 1).fieldsValid = false := by decide
theorem test_store_bad_rs2 : (Instr.store 1 16).fieldsValid = false := by decide
theorem test_load_bad_rs1 : (Instr.load 16 1).fieldsValid = false := by decide
theorem test_load_bad_rs2 : (Instr.load 1 16).fieldsValid = false := by decide
theorem test_loadimm_bad_rd : (Instr.loadimm 16 0 0).fieldsValid = false := by decide
theorem test_sub_bad_rd : (Instr.sub 200 1 2).fieldsValid = false := by decide
theorem test_sub_bad_rs1 : (Instr.sub 1 255 2).fieldsValid = false := by decide
theorem test_sub_bad_rs2 : (Instr.sub 1 2 16).fieldsValid = false := by decide
theorem test_out_bad_rs1 : (Instr.out 16).fieldsValid = false := by decide
theorem test_outNumber_bad_rs1 : (Instr.outNumber 16).fieldsValid = false := by decide
/-- R69: a field above 15 is still a legal encoding. -/
theorem test_bad_field_is_wellFormed : (Instr.out 16).wellFormed = true := by decide
theorem test_image_too_long : imageWellFormed (List.replicate 4097 0) = false := by
  rw [imageWellFormed, List.length_replicate]; decide
theorem test_image_fits : imageWellFormed (List.replicate 4096 0) = true := by
  rw [imageWellFormed, List.length_replicate]; decide

/-! Part 2: decoding, words written out bit by bit from R64 -/

theorem test_decode_move_if :
    decodeTableWord 32 0b00000010_00000001_00000011_00000001 = some (.moveIf 3 1 2) := by decide
theorem test_decode_store : decodeTableWord 24 0b00000010_00000001_00000010 = some (.store 1 2) := by decide
theorem test_decode_load : decodeTableWord 24 0b00000001_00000011_00000011 = some (.load 3 1) := by decide
/-- R63: `loadimm rd, 0x34, 0x12`, so `lo` comes before `hi`. -/
theorem test_decode_loadimm :
    decodeTableWord 32 0b00010010_00110100_00000001_00000100 = some (.loadimm 1 0x34 0x12) := by decide
theorem test_decode_sub :
    decodeTableWord 32 0b00000010_00000001_00000011_00000101 = some (.sub 3 1 2) := by decide
theorem test_decode_out : decodeTableWord 16 0b00000001_00000110 = some (.out 1) := by decide
theorem test_decode_exit : decodeTableWord 8 0b00000111 = some .exit := by decide
theorem test_decode_out_number : decodeTableWord 16 0b00000011_00001000 = some (.outNumber 3) := by decide
/-- R65: all 8 bits of a register field are significant. -/
theorem test_decode_field_200 : decode [0x01, 0xC8, 0x01, 0x02] = .ok (.moveIf 200 1 2, []) := by decide
/-- R68: the illegal opcodes nearest to the defined ones, and 0xFF (W10). -/
theorem test_decode_illegal : decode [0x00] = .error (.illegalOpcode 0x00) ∧
    decode [0x09, 1, 2, 3] = .error (.illegalOpcode 0x09) ∧ decode [0xFF] = .error (.illegalOpcode 0xFF) := by decide
/-- R75: one byte short of the length. -/
theorem test_decode_truncated : decode [0x01, 1, 2] = .error (.truncated .moveIf) ∧
    decode [0x06] = .error (.truncated .out) ∧ decode [] = .error .noOpcode := by decide

/-! Part 3: single steps -/

/-- M1: with `x[1] = 5` and `x[2] = 1`. -/
theorem test_move_if_copies :
    after (fun t => (t.reg 3, t.ip, t.run))
      (((machine 0 [0x01, 0x03, 0x01, 0x02]).setReg 1 5).setReg 2 1) = some (5, 4, .running) := by decide
/-- M5: with `x[2] = 0` the bad `rd` is not checked. -/
theorem test_move_if_lazy :
    after (fun t => (t.ip, t.run)) (machine 0 [0x01, 0xC8, 0x01, 0x02]) = some (4, .running) := by decide
/-- W5: `loadimm` of 0xFFCD. -/
theorem test_loadimm_sign_extends :
    after (fun t => t.reg 1) (machine 0 [0x04, 0x01, 0xCD, 0xFF]) = some 0xFFFFFFCD := by decide
/-- L3: the largest positive immediate, at the top of memory (F6). -/
theorem test_loadimm_top :
    after (fun t => (t.reg 1, t.ip)) (machine 4092 [0x04, 0x01, 0xFF, 0x7F]) = some (0x00007FFF, 4096) := by decide
/-- S1, W6: `5 - 10` wraps. -/
theorem test_sub_wraps :
    after (fun t => t.reg 3)
      (((machine 0 [0x05, 0x03, 0x01, 0x02]).setReg 1 5).setReg 2 10) = some 0xFFFFFFFB := by decide
/-- S8: `sub r0, r0, r4` with `x[4] = 4` at 8 jumps to itself. -/
theorem test_sub_self_loop :
    after (fun t => t.ip) ((machine 8 [0x05, 0x00, 0x00, 0x04]).setReg 4 4) = some 8 := by decide
/-- ST2: the highest address, little-endian. -/
theorem test_store_top :
    after (fun t => t.bytes 4092 4)
      (((machine 0 [0x02, 0x01, 0x02]).setReg 1 4092).setReg 2 0x11223344) =
      some [0x44, 0x33, 0x22, 0x11] := by decide
/-- ST4: an address near 2^32 does not wrap, and nothing is written. -/
theorem test_store_no_wrap :
    after (fun t => (t.run, t.ip, t.mem == Memory.writeBytes [] 0 [0x02, 0x01, 0x02]))
      ((machine 0 [0x02, 0x01, 0x02]).setReg 1 0xFFFFFFFD) =
      some (.faulted .memoryOverflow, 3, true) := by decide
/-- LD8: `load r2, r0` loads the bytes at the advanced IP. -/
theorem test_load_next_bytes :
    after (fun t => t.reg 2) (machine 0 [0x03, 0x02, 0x00, 0x07, 0x00, 0x00, 0x00]) = some 7 := by decide
/-- LD5: a bad address is reported before a bad destination. -/
theorem test_load_checks_address_first :
    after (fun t => (t.run, t.ip)) ((machine 0 [0x03, 0x10, 0x01]).setReg 1 4093) =
      some (.faulted .memoryOverflow, 3) := by decide
/-- O2: only the low byte is written. -/
theorem test_out_low_byte :
    after (fun t => (t.out, t.ip)) ((machine 0 [0x06, 0x01]).setReg 1 0x12345641) = some ([0x41], 2) := by decide
/-- O6: a rejected write that keeps nothing. -/
theorem test_out_rejected :
    after (fun t => (t.out, t.run, t.ip))
      (hostBindSink ⟨[.reject 0], .accept⟩ ((machine 0 [0x06, 0x01]).setReg 1 65)) =
      some ([], .faulted .outputError, 2) := by decide
/-- N4: the most negative value, the longest text. -/
theorem test_out_number_minimum :
    after (fun t => t.out) ((machine 0 [0x08, 0x01]).setReg 1 0x80000000) =
      some [0x2D, 0x32, 0x31, 0x34, 0x37, 0x34, 0x38, 0x33, 0x36, 0x34, 0x38] := by decide
/-- N9: 1234 with a sink that keeps two codes of the rejected text. -/
theorem test_out_number_rejected :
    after (fun t => (t.out, t.result))
      (hostBindSink ⟨[], .reject 2⟩ ((machine 0 [0x08, 0x01]).setReg 1 1234)) =
      some ([0x31, 0x32], .err .outputError) := by decide
/-- F1: `exit` at 4095 halts and leaves 4096. -/
theorem test_exit_top : after (fun t => (t.ip, t.result)) (machine 4095 [0x07]) = some (4096, .halted) := by decide
/-- E2: a further step changes nothing. -/
theorem test_exit_absorbs : after (fun t => (t.ip, t.run)) (stepped (machine 0 [0x07])) = some (1, .halted) := by decide

/-- F11: the opcode check comes before the length check. -/
theorem test_illegal_at_top :
    after (fun t => (t.ip, t.run)) (machine 4095 [0xFF]) = some (4096, .faulted .instructionError) := by decide
/-- F8: a fetch far above memory pins IP at 4096. -/
theorem test_fetch_far_above :
    after (fun t => (t.ip, t.run)) (State.reset.setIp 0xFFFFFFFF) = some (4096, .faulted .memoryOverflow) := by decide
/-- F12: a store over its own bytes uses its latched operands. -/
theorem test_store_over_itself :
    after (fun t => (t.bytes 0 4, t.ip))
      (((machine 0 [0x02, 0x01, 0x02, 0x00]).setReg 1 0).setReg 2 7) = some ([0x07, 0, 0, 0], 3) := by decide
/-- H4: a host store, then a step. -/
theorem test_host_store_then_step :
    (match hostStoreWord 0 0x00000007 State.reset with
      | .ok s => after (fun t => t.result) s
      | .error _ => none) = some .halted := by decide
/-- E5: a host write of IP does not revive a faulted machine. -/
theorem test_host_write_does_not_revive :
    (match hostSetRegister 0 0 (stepped (State.reset.setIp 4096)) with
      | .ok s => after (fun t => (t.ip, t.result)) s
      | .error _ => none) = some (0, .err .memoryOverflow) := by decide

/-! Part 4: the statements' hypotheses can be met -/

theorem witness_EncodeOfDecodeIsIdentity : decode [0x07, 0xFF] = .ok (.exit, [0xFF]) := by decide
theorem witness_OpcodeByteSetsLength : decode (0x06 :: [0x01]) = .ok (.out 1, []) := by decide
theorem witness_ConstructionLoadsImage : ([0x07, 0x01, 0x02] : List Byte).length ≤ 4096 := by decide
theorem witness_ConstructionRefuses_long : 4096 < (List.replicate 4097 (0 : Byte)).length := by
  rw [List.length_replicate]; decide
theorem witness_ConstructionRefuses_full : (List.replicate 4096 (0 : Byte)).length ≤ 4096 := by
  rw [List.length_replicate]
theorem witness_ExecutionStartsAtZero : construct [0x07] = .ok (machine 0 [0x07]) := by decide
theorem witness_ImageWithoutOpcode : construct [0xFF] = .ok (machine 0 [0xFF]) ∧
    illegalByte ((([0xFF] : List Byte)[0]?).getD 0) := ⟨by decide, .inr (by decide)⟩
theorem witness_ImageWithoutOpcode_empty : construct [] = .ok State.reset ∧
    illegalByte ((([] : List Byte)[0]?).getD 0) := ⟨by decide, .inl (by decide)⟩
theorem witness_RegisterAccess : (15 : Nat) < 16 ∧ (15 : Nat) ≤ 15 := by decide
theorem witness_LoadWord_top : (4092 : Word).toNat + 3 < 4096 := by decide
theorem witness_LoadWord_outside : 4096 ≤ (4093 : Word).toNat + 3 := by decide
theorem witness_StoreWord : State.reset.mem.wf = true ∧ (4092 : Word).toNat + 3 < 4096 ∧
    4096 ≤ (0xFFFFFFFD : Word).toNat + 3 := by decide
theorem witness_LoadAfterStore : State.reset.mem.wf = true ∧
    storeWord 4092 0x11223344 State.reset =
      .ok { State.reset with mem := [(4092, 0x44), (4093, 0x33), (4094, 0x22), (4095, 0x11)] } := by decide
/-- The two addresses: two bytes apart at the top of memory, the second below the first, and at 0. -/
theorem witness_OverlappingStores : State.reset.mem.wf = true ∧ (4090 : Word).toNat ≤ 4092 ∧
    (4092 : Word).toNat ≤ 4092 ∧ (4092 : Word).toNat = (4090 : Word).toNat + 2 ∧ (0 : Word).toNat ≤ 4092 := by decide
theorem witness_StepRunsDecodedInstruction : (machine 4095 [0x07]).run = .running ∧
    decode (machine 4095 [0x07]).fetchWindow = .ok (.exit, []) := by decide
theorem witness_EncodedInstructionAtIp : (machine 4092 [0x04, 0x01, 0x05, 0x00]).run = .running ∧
    (machine 4092 [0x04, 0x01, 0x05, 0x00]).AtIp (encode (.loadimm 1 5 0)) :=
  ⟨by decide, by decide, by decide⟩
theorem witness_PlacedWord : State.reset.mem.wf = true ∧ State.reset.run = .running ∧
    State.reset.ip.toNat + 4 ≤ 4096 ∧ decodeTableWord 16 0x0106 = some (.out 1) := by decide
theorem witness_FetchOutside : (State.reset.setIp 4096).run = .running ∧
    4096 ≤ (State.reset.setIp 4096).ip.toNat ∧ 4096 ≤ (State.reset.setIp 0xFFFFFFFF).ip.toNat := by decide
theorem witness_IllegalOpcode : (machine 4095 [0xFF]).run = .running ∧ (machine 4095 [0xFF]).ip.toNat < 4096 ∧
    illegalByte ((machine 4095 [0xFF]).byte (machine 4095 [0xFF]).ip.toNat) :=
  ⟨by decide, by decide, .inr (by decide)⟩
theorem witness_IllegalOpcode_nine : illegalByte 0x09 ∧ illegalByte 0x00 ∧ ¬ illegalByte 0x08 ∧ ¬ illegalByte 0x01 :=
  ⟨.inr (by decide), .inl (by decide), by simp [illegalByte], by simp [illegalByte]⟩
theorem witness_BoundaryCheck : (machine 4095 [0x06]).run = .running ∧ (machine 4095 [0x06]).ip.toNat < 4096 ∧
    Opcode.ofByte? ((machine 4095 [0x06]).byte (machine 4095 [0x06]).ip.toNat) = some .out ∧
    4096 ≤ (machine 4095 [0x06]).ip.toNat + Opcode.out.length - 1 := by decide
theorem witness_BoundaryCheck_move_if :
    Opcode.ofByte? ((machine 4093 [0x01]).byte (machine 4093 [0x01]).ip.toNat) = some .moveIf ∧
    4096 ≤ (machine 4093 [0x01]).ip.toNat + Opcode.moveIf.length - 1 := by decide
theorem witness_BoundaryCheck_exit : (machine 4095 [0x07]).ip.toNat = 4095 ∧
    Opcode.ofByte? ((machine 4095 [0x07]).byte (machine 4095 [0x07]).ip.toNat) = some .exit := by decide
theorem witness_FetchTouchesOnlyIp : fetch (machine 4095 [0x07]) = .instr .exit ((machine 4095 [0x07]).setIp 4096) := by
  decide
theorem witness_FetchTouchesOnlyIp_raised : fetch State.reset =
    .raised { State.reset.setIp 1 with run := .faulted .instructionError } := by decide
theorem witness_FetchTouchesOnlyIp_pinned : fetch (machine 4094 [0x02]) =
    .raised { (machine 4094 [0x02]).setIp 4096 with run := .faulted .memoryOverflow } := by decide
theorem witness_FetchFaultLatches : (machine 4094 [0x02]).run = .running ∧
    decode (machine 4094 [0x02]).fetchWindow = .error (.truncated .store) := by decide
theorem witness_FetchFaultLatches_sentinel : (State.reset.setIp 4096).run = .running ∧
    (State.reset.setIp 4096).ip = 4096 := by decide
theorem witness_TerminalStatesAbsorb : (stepped (machine 0 [0x07])).run = .halted ∧
    (stepped State.reset).run = .faulted .instructionError := by decide
theorem witness_StepAnswers_raise : (machine 0 [0x06, 0x10]).run = .running ∧
    decode (machine 0 [0x06, 0x10]).fetchWindow = .ok (.out 16, [0, 0]) ∧
    (stepped (machine 0 [0x06, 0x10])).run = .faulted .registerOverflow := by decide
theorem witness_MoveIf : (State.reset.setReg 2 0x80000000).reg 2 ≠ 0 ∧ State.reset.reg 2 = 0 ∧
    15 < (16 : Byte).toNat ∧ 15 < (200 : Byte).toNat := by decide
theorem witness_bad_field : 15 < (16 : Byte).toNat ∧ 15 < (255 : Byte).toNat := by decide
theorem witness_Store : State.reset.mem.wf = true ∧ ((State.reset.setReg 1 4092).reg 1).toNat ≤ 4092 ∧
    4092 < ((State.reset.setReg 1 4093).reg 1).toNat := by decide
theorem witness_Load : ((State.reset.setReg 2 4092).reg 2).toNat ≤ 4092 ∧
    4092 < ((State.reset.setReg 2 0xFFFFFFFF).reg 2).toNat ∧ 15 < (16 : Byte).toNat := by decide
theorem witness_Out_accepts : (hostBindSink ⟨[.accept], .reject 0⟩ State.reset).sink.next = .accept := by decide
theorem witness_Out_rejects : (hostBindSink ⟨[.reject 3], .accept⟩ State.reset).sink.next = .reject 3 := by decide
theorem witness_ExitHalts : (machine 4095 [0x07]).run = .running ∧ (machine 4095 [0x07]).AtIp [0x07] :=
  ⟨by decide, by decide, by decide⟩
theorem witness_WritingRegisterZero : (State.reset.setReg 6 1).reg 6 ≠ 0 ∧
    loadWord ((State.reset.setReg 6 4092).reg 6) (State.reset.setReg 6 4092) = .ok 0 := by decide
theorem witness_GetipGivesNextAddress : (machine 4092 [0x01, 0x07, 0x00, 0x00]).run = .running ∧
    (machine 4092 [0x01, 0x07, 0x00, 0x00]).AtIp [0x01, regField 7, 0x00, 0x00] :=
  ⟨by decide, by decide, by decide⟩
theorem witness_RegisterZeroSource_move_if : (machine 4092 [0x01, 0x07, 0x00, 0x00]).run = .running ∧
    (machine 4092 [0x01, 0x07, 0x00, 0x00]).AtIp [0x01, regField 7, 0x00, regField 0] ∧
    ((machine 4092 [0x01, 0x07, 0x00, 0x00]).setIp 4096).reg 0 ≠ 0 ∧
    (machine 0 [0x01, 0x07, 0x06, 0x00]).AtIp [0x01, regField 7, regField 6, 0x00] :=
  ⟨by decide, ⟨by decide, by decide⟩, by decide, by decide, by decide⟩
theorem witness_RegisterZeroSource_sub :
    (machine 0 [0x05, 0x07, 0x00, 0x06]).AtIp [0x05, regField 7, 0x00, regField 6] ∧
    (machine 4092 [0x05, 0x00, 0x06, 0x00]).AtIp [0x05, regField 0, regField 6, 0x00] :=
  ⟨⟨by decide, by decide⟩, by decide, by decide⟩
theorem witness_RegisterZeroSource_load : (machine 4089 [0x03, 0x07, 0x00]).AtIp [0x03, regField 7, 0x00] ∧
    (machine 4089 [0x03, 0x07, 0x00]).ip.toNat + 3 ≤ 4092 := ⟨⟨by decide, by decide⟩, by decide⟩
theorem witness_RegisterZeroSource_store :
    (machine 4089 [0x02, 0x00, 0x07]).AtIp [0x02, 0x00, regField 7] ∧ (machine 4089 [0x02, 0x00, 0x07]).mem.wf = true ∧
    (machine 4089 [0x02, 0x00, 0x07]).ip.toNat + 3 ≤ 4092 ∧
    (machine 4093 [0x02, 0x07, 0x00]).AtIp [0x02, regField 7, 0x00] ∧ (machine 4093 [0x02, 0x07, 0x00]).mem.wf = true ∧
    (((machine 4093 [0x02, 0x07, 0x00]).setIp 4096).reg 7).toNat ≤ 4092 :=
  ⟨⟨by decide, by decide⟩, by decide, by decide, ⟨by decide, by decide⟩, by decide, by decide⟩
theorem witness_RegisterZeroSource_out : (machine 4094 [0x06, 0x00]).AtIp [0x06, 0x00] ∧
    (hostBindSink ⟨[.accept], .accept⟩ (machine 4094 [0x06, 0x00])).sink.next = .accept ∧
    (machine 4094 [0x08, 0x00]).AtIp [0x08, 0x00] := ⟨⟨by decide, by decide⟩, by decide, by decide, by decide⟩
theorem witness_PseudoInstructions : (0x7FFF : BitVec 16).toNat ≤ 0x7FFF ∧ (State.reset.setIp 24).ip ≠ 0 := by decide
theorem witness_RegisterOperationsFrame : exec (.sub 3 1 2) State.reset = .next (State.reset.setReg 3 0) ∧
    exec (.moveIf 3 1 2) State.reset = .next State.reset ∧
    exec (.loadimm 16 0 0) State.reset = .next { State.reset with run := .faulted .registerOverflow } :=
  ⟨rfl, rfl, rfl⟩
theorem witness_LoadFrame : exec (.load 3 1) State.reset = .next (State.reset.setReg 3 0) ∧
    exec (.load 3 1) (State.reset.setReg 1 4093) =
      .next { State.reset.setReg 1 4093 with run := .faulted .memoryOverflow } := ⟨rfl, rfl⟩
theorem witness_StoreFrame : State.reset.mem.wf = true ∧
    exec (.store 1 2) (State.reset.setReg 2 7) = .next { State.reset.setReg 2 7 with mem := [(0, 7)] } ∧
    readAddress 1 (State.reset.setReg 2 7) = .ok 0 := ⟨rfl, rfl, rfl⟩
theorem witness_OutputFrame : exec (.out 1) State.reset = .next { State.reset with out := [0] } ∧
    exec (.outNumber 1) State.reset = .next { State.reset with out := [0x30] } ∧
    exec (.out 16) State.reset = .next { State.reset with run := .faulted .registerOverflow } := ⟨rfl, rfl, rfl⟩
theorem witness_ExitFrame : exec .exit State.reset = .next { State.reset with run := .halted } := rfl
theorem witness_StepKeepsInvariant : (machine 4095 [0x07]).Inv ∧
    step (machine 4095 [0x07]) = .next (stepped (machine 4095 [0x07])) :=
  ⟨⟨by decide, fun h => absurd rfl h⟩, rfl⟩
theorem witness_StepKeepsInvariant_terminal : (stepped State.reset).Inv := ⟨by decide, fun _ => by decide⟩
theorem witness_ConstructedMachines : construct [0x07] = .ok (machine 0 [0x07]) := by decide
theorem witness_HostAccess : State.reset.mem.wf = true ∧
    hostSetRegister 15 5 State.reset = .ok (State.reset.setReg 15 5) ∧
    hostStoreWord 0 7 State.reset = .ok { State.reset with mem := [(0, 7)] } ∧
    (stepped State.reset).run ≠ .running := by decide
theorem witness_OutputOnlyGrows : step (machine 0 [0x06, 0x00]) = .next (stepped (machine 0 [0x06, 0x00])) ∧
    (stepped (machine 0 [0x06, 0x00])).out ≠ (machine 0 [0x06, 0x00]).out := ⟨rfl, by decide⟩
theorem witness_OnlyStoreChangesMemory : (machine 0 [0x02, 0x01, 0x00]).mem.wf = true ∧
    step (machine 0 [0x02, 0x01, 0x00]) = .next (stepped (machine 0 [0x02, 0x01, 0x00])) ∧
    (stepped (machine 0 [0x02, 0x01, 0x00])).mem ≠ (machine 0 [0x02, 0x01, 0x00]).mem :=
  ⟨by decide, rfl, by decide⟩
theorem witness_OutputLogIsNeverRead : step (machine 0 [0x06, 0x00]) = .next (stepped (machine 0 [0x06, 0x00])) := rfl
theorem witness_SinkMattersOnlyToOutput : step State.reset = .next (stepped State.reset) ∧
    State.reset.byte State.reset.ip.toNat ≠ 6 ∧ State.reset.byte State.reset.ip.toNat ≠ 8 := ⟨rfl, by decide, by decide⟩
/-- `store r0, r1` at 0 with `x[1] = 7`: it stores over the next instruction. -/
def storeOverNext : State := (machine 0 [0x02, 0x00, 0x01]).setReg 1 7
theorem witness_StoredExitIsFetchedNext :
    (storeOverNext.mem.wf = true ∧ storeOverNext.run = .running) ∧
    storeOverNext.AtIp [0x02, regField 0, regField 1] ∧
    ((storeOverNext.setIp (storeOverNext.ip + 3)).reg 0).toNat = storeOverNext.ip.toNat + 3 ∧
    storeOverNext.ip.toNat + 3 ≤ 4092 ∧
    ((storeOverNext.setIp (storeOverNext.ip + 3)).reg 1).toNat % 2 ^ 8 = 7 :=
  ⟨by decide, ⟨by decide, by decide⟩, by decide, by decide, by decide⟩
theorem witness_InstructionError : State.reset.run = .running ∧ State.reset.ip.toNat < 4096 := by decide
theorem witness_InstructionError_kept :
    exec (.moveIf 1 1 1) { State.reset with run := .faulted .instructionError } =
      .next { State.reset with run := .faulted .instructionError } := rfl
theorem witness_OutputError : State.reset.run = .running ∧
    fetch State.reset = .raised { State.reset.setIp 1 with run := .faulted .instructionError } := by decide
theorem witness_RegisterOverflow : State.reset.run = .running ∧
    exec (.out 16) State.reset = .next { State.reset with run := .faulted .registerOverflow } := ⟨rfl, rfl⟩
theorem witness_RunStopsAtFirstTerminal : hostRun 1 (machine 0 [0x07]) =
    (some (.ok ()), stepped (machine 0 [0x07])) := rfl

end Sys2Proof.Machine.Tests
end

section
/-! SUPPORT. The decoder against the encoder, and the bytes at IP: an instruction that is fetched is the one whose bytes
stand at IP, and the other way round. -/

namespace Sys2Proof

/-- Operand bytes that decode are those of the instruction, and then what decoding leaves (R64). -/
theorem encode_of_decodeOperands {o : Opcode} {bytes rest : List Byte} {i : Instr}
    (h : decodeOperands o bytes = .ok (i, rest)) : encode i ++ rest = o.toByte :: bytes := by
  cases o <;> rcases bytes with _ | ⟨a, _ | ⟨b, _ | ⟨c, bytes⟩⟩⟩ <;> cases h <;> rfl

/-- Bytes that decode are those of the instruction, and then what decoding leaves (R64). -/
theorem encode_of_decode {bytes rest : List Byte} {i : Instr} (h : decode bytes = .ok (i, rest)) :
    encode i ++ rest = bytes := by
  rcases bytes with _ | ⟨op, bytes⟩
  · cases h
  · rcases ho : Opcode.ofByte? op with _ | o
    · rw [decode_cons_none ho] at h
      cases h
    · rw [decode_cons_some ho] at h
      rw [encode_of_decodeOperands h, ofByte?_eq_some ho]

/-- Decoding the bytes of an instruction gives it back, whatever follows them (R64). -/
theorem decode_encode_append (i : Instr) (rest : List Byte) : decode (encode i ++ rest) = .ok (i, rest) := by
  cases i <;> rfl

namespace Machine

variable {s t : State} {i : Instr}

@[simp] theorem reg_zero_setIp (s : State) (v : Word) : (s.setIp v).reg 0 = v := reg_setReg_same s 0 v

/-- The bytes that stand at IP, one at a time. -/
theorem byte_of_atIp {bytes : List Byte} (h : s.AtIp bytes) {k : Nat} {b : Byte} (hk : bytes[k]? = some b) :
    s.byte (s.ip.toNat + k) = b := by
  obtain ⟨-, hb⟩ := h
  rw [← hb, bytes_getElem?] at hk
  split at hk
  · exact Option.some.inj hk
  · cases hk

/-- Register 0 after an advance over bytes that lie inside memory is the address that follows them: the sum does not
overflow (R25, R77). -/
theorem reg_zero_toNat_of_atIp {bytes : List Byte} {n : Nat} (h : s.AtIp bytes) (hn : bytes.length = n) :
    ((s.setIp (s.ip + BitVec.ofNat 32 n)).reg 0).toNat = s.ip.toNat + n := by
  obtain ⟨hl, -⟩ := h
  rw [reg_zero_setIp, BitVec.toNat_add, BitVec.toNat_ofNat]
  omega

theorem reg_zero_ne_zero_of_atIp {bytes : List Byte} {n : Nat} (h : s.AtIp bytes) (hn : bytes.length = n)
    (h0 : n ≠ 0) : (s.setIp (s.ip + BitVec.ofNat 32 n)).reg 0 ≠ 0 := by
  intro hz
  have : 0 = s.ip.toNat + n := (congrArg BitVec.toNat hz).symm.trans (reg_zero_toNat_of_atIp h hn)
  omega

/-- A fetched instruction stands at IP. -/
theorem atIp_of_decode {rest : List Byte} (h : decode s.fetchWindow = .ok (i, rest)) : s.AtIp (encode i) := by
  obtain ⟨-, hl⟩ := fetch_of_decode h
  have hw := encode_of_decode h
  have hn : i.length ≤ min maxLength (Config.memorySize - s.ip.toNat) := by
    have := congrArg List.length hw
    rw [List.length_append, encode_length, State.fetchWindow, bytes_length] at this
    omega
  obtain ⟨d, hd⟩ := Nat.exists_eq_add_of_le hn
  rw [State.fetchWindow, hd, bytes_add] at hw
  refine ⟨by rwa [encode_length], ?_⟩
  rw [encode_length]
  exact (List.append_inj_left hw (by simp)).symm

/-- What a fetch that answers an instruction has found and done. -/
theorem fetch_eq_instr (h : fetch s = .instr i t) :
    s.AtIp (encode i) ∧ t = s.setIp (s.ip + BitVec.ofNat 32 i.length) := by
  rcases fetch_cases s with ⟨_, e⟩ | ⟨_, _, e⟩ | ⟨_, _, e⟩ | ⟨j, rest, _, _, hd, e⟩ <;> rw [e] at h <;> cases h
  exact ⟨atIp_of_decode hd, rfl⟩

/-- A step request outside RUNNING changes nothing (R128). -/
theorem step_of_not_running (h : s.run ≠ .running) : step s = .next s := by
  rcases step_cases s with ⟨-, e⟩ | ⟨hr, -⟩ | ⟨hr, -⟩
  · exact e
  · exact absurd hr h
  · exact absurd hr h

/-- A running machine with an instruction's bytes at IP runs its handler after the IP advance (R76, R77). -/
theorem step_of_atIp (hr : s.run = .running) (h : s.AtIp (encode i)) :
    step s = exec i (s.setIp (s.ip + BitVec.ofNat 32 i.length)) := by
  obtain ⟨rest, hw⟩ := fetchWindow_of_atIp h
  obtain ⟨hf, -⟩ := fetch_of_decode (hw ▸ decode_encode_append i rest)
  exact step_of_instr hr hf

end Machine
end Sys2Proof
end

section
/-! SUPPORT. What each handler that reads a register computes where its fields name registers, and the whole step of a
running machine with that instruction at IP: the same, in the state after the IP advance (R77, R79). -/

namespace Sys2Proof.Machine

variable {s : State} {d r q c : Fin Config.numRegs}

theorem nonZero_eq_true {v : Word} (h : v ≠ 0) : nonZero v = true := decide_eq_true h

theorem lowCode_eq_ofNat (v : Word) : lowCode v = BitVec.ofNat 8 v.toNat := (BitVec.ofNat_toNat 8 v).symm

/-- A word below 2^31 is its own signed reading. -/
theorem signed32_of_lt {v : Word} (h : v.toNat < 2 ^ 31) : signed32 v = v.toNat := if_pos h

theorem emit_out_of_accept {codes : List Byte} (h : s.sink.next = .accept) : (emit codes s).out = s.out ++ codes := by
  rw [emit_accept h]

/-! The handlers -/

/-- A true condition (R90). -/
theorem exec_moveIf_of_ne (hc : s.reg c ≠ 0) :
    exec (.moveIf (regField d) (regField r) (regField c)) s = .next (s.setReg d (s.reg r)) := by
  simp [exec, execMoveIf, nonZero_eq_true hc]

theorem exec_sub : exec (.sub (regField d) (regField r) (regField q)) s =
    .next (s.setReg d (subtract (s.reg r) (s.reg q))) := by
  simp [exec, execSub]

theorem exec_load {w : Word} (hw : loadWord (s.reg r) s = .ok w) :
    exec (.load (regField d) (regField r)) s = .next (s.setReg d w) := by
  simp [exec, execLoad, hw]

theorem exec_store (ha : (s.reg r).toNat + 3 < 4096) : exec (.store (regField r) (regField q)) s =
    .next { s with mem := s.mem.writeBytes (s.reg r).toNat (wordBytes (s.reg q)) } := by
  simp [exec, execStore, storeWord_inRange ha]

theorem exec_out : exec (.out (regField r)) s = .next (emit [lowCode (s.reg r)] s) := by
  simp [exec, execOut]

theorem exec_outNumber : exec (.outNumber (regField r)) s = .next (emit (dec (signed32 (s.reg r))) s) := by
  simp [exec, execOutNumber]

/-! The step -/

section
variable (hr : s.run = .running)
include hr

theorem step_moveIf_of_ne (h : s.AtIp [0x01, regField d, regField r, regField c])
    (hc : (s.setIp (s.ip + 4)).reg c ≠ 0) :
    step s = .next ((s.setIp (s.ip + 4)).setReg d ((s.setIp (s.ip + 4)).reg r)) :=
  (step_of_atIp (i := .moveIf _ _ _) hr h).trans (exec_moveIf_of_ne hc)

theorem step_sub (h : s.AtIp [0x05, regField d, regField r, regField q]) :
    step s = .next ((s.setIp (s.ip + 4)).setReg d
      (subtract ((s.setIp (s.ip + 4)).reg r) ((s.setIp (s.ip + 4)).reg q))) :=
  (step_of_atIp (i := .sub _ _ _) hr h).trans exec_sub

theorem step_load {w : Word} (h : s.AtIp [0x03, regField d, regField r])
    (hw : loadWord ((s.setIp (s.ip + 3)).reg r) (s.setIp (s.ip + 3)) = .ok w) :
    step s = .next ((s.setIp (s.ip + 3)).setReg d w) :=
  (step_of_atIp (i := .load _ _) hr h).trans (exec_load hw)

theorem step_store (h : s.AtIp [0x02, regField r, regField q])
    (ha : ((s.setIp (s.ip + 3)).reg r).toNat + 3 < 4096) :
    step s = .next { s.setIp (s.ip + 3) with
      mem := s.mem.writeBytes ((s.setIp (s.ip + 3)).reg r).toNat (wordBytes ((s.setIp (s.ip + 3)).reg q)) } :=
  (step_of_atIp (i := .store _ _) hr h).trans (exec_store ha)

/-- The bytes a `store` leaves at its address: those of the value, the least significant first. -/
theorem step_store_bytes (hw : s.mem.wf = true) (h : s.AtIp [0x02, regField r, regField q])
    (ha : ((s.setIp (s.ip + 3)).reg r).toNat ≤ 4092) :
    ∃ t, step s = .next t ∧ ∀ k, k < 4 → (t.byte (((s.setIp (s.ip + 3)).reg r).toNat + k)).toNat =
      ((s.setIp (s.ip + 3)).reg q).toNat / 2 ^ (8 * k) % 2 ^ 8 := by
  have ha' : ((s.setIp (s.ip + 3)).reg r).toNat + 3 < 4096 := by omega
  refine ⟨_, step_store hr h ha', fun k hk => ?_⟩
  rw [byte_withMem, read_writeWord hw ha', if_pos (by omega), Nat.add_sub_cancel_left, wordByte_toNat]

theorem step_out (h : s.AtIp [0x06, regField r]) :
    step s = .next (emit [lowCode ((s.setIp (s.ip + 2)).reg r)] (s.setIp (s.ip + 2))) :=
  (step_of_atIp (i := .out _) hr h).trans exec_out

theorem step_outNumber (h : s.AtIp [0x08, regField r]) :
    step s = .next (emit (dec (signed32 ((s.setIp (s.ip + 2)).reg r))) (s.setIp (s.ip + 2))) :=
  (step_of_atIp (i := .outNumber _) hr h).trans exec_outNumber

end

end Sys2Proof.Machine
end

section
/-! SUPPORT. A change of the output log and of the sink's draws alone commutes with everything but an offer: fetch and the
handlers read neither (R31, R32). -/

namespace Sys2Proof.Machine

/-- The state with its output log and its sink's draws replaced. -/
def State.mapPort (g : List Byte → List Byte) (k : Sink → Sink) (s : State) : State :=
  { s with out := g s.out, sink := k s.sink }

/-- The outcome with another state, where it has one. -/
def mapNext (f : State → State) : Outcome → Outcome
  | .next s => .next (f s)
  | .fault r => .fault r
  | .refused r => .refused r

/-- What a fetch comes to, with another state. -/
def Fetched.mapState (f : State → State) : Fetched → Fetched
  | .instr i s => .instr i (f s)
  | .raised s => .raised (f s)

variable {g : List Byte → List Byte} {k : Sink → Sink} {s t : State}

theorem writeField_mapPort (f : Byte) (v : Word) :
    writeField f v (s.mapPort g k) = (writeField f v s).map (State.mapPort g k) := by
  rcases field_cases f with ⟨r, rfl⟩ | h
  · rw [writeField_valid, writeField_valid]
    rfl
  · rw [writeField_invalid v h, writeField_invalid v h]
    rfl

theorem storeWord_mapPort (a v : Word) :
    storeWord a v (s.mapPort g k) = (storeWord a v s).map (State.mapPort g k) := by
  unfold storeWord
  split <;> rfl

theorem fetchFault_mapPort (e : DecodeError) : fetchFault e (s.mapPort g k) = (fetchFault e s).mapPort g k := by
  cases e <;> rfl

/-- A fetch finds the same bytes, and its advance or its fault keeps the port. -/
theorem fetch_mapPort : fetch (s.mapPort g k) = (fetch s).mapState (State.mapPort g k) := by
  have hw : (s.mapPort g k).fetchWindow = s.fetchWindow := rfl
  rcases hd : decode s.fetchWindow with e | ⟨i, rest⟩
  · simp only [fetch, hw, hd, fetchFault_mapPort, Fetched.mapState]
  · simp only [fetch, hw, hd, Fetched.mapState]
    rfl

/-- A checked primitive whose value does not depend on the port. -/
theorem check_mapPort {α : Type} {x : Except ErrorKind α} {n n' : α → Outcome}
    (h : ∀ a, n' a = mapNext (State.mapPort g k) (n a)) :
    check x (s.mapPort g k) n' = mapNext (State.mapPort g k) (check x s n) := by
  rcases x with e | a
  · rfl
  · exact h a

/-- A checked primitive whose value is a state of which it keeps the port. -/
theorem check_map_mapPort {x : Except ErrorKind State} :
    check (x.map (State.mapPort g k)) (s.mapPort g k) .next = mapNext (State.mapPort g k) (check x s .next) := by
  rcases x with e | t <;> rfl

/-- Every handler commutes with a change of the port, an output handler where its offers do: a register or a word is
read without the port. -/
theorem exec_mapPort {i : Instr}
    (h : (∃ r, i = .out r ∨ i = .outNumber r) → ∀ codes, emit codes (s.mapPort g k) = (emit codes s).mapPort g k) :
    exec i (s.mapPort g k) = mapNext (State.mapPort g k) (exec i s) := by
  have write : ∀ (f : Byte) (v : Word), check (writeField f v (s.mapPort g k)) (s.mapPort g k) .next =
      mapNext (State.mapPort g k) (check (writeField f v s) s .next) := fun f v => by
    rw [writeField_mapPort, check_map_mapPort]
  cases i with
  | moveIf rd rs1 rs2 =>
    refine check_mapPort fun c => ?_
    by_cases hc : nonZero c
    · rw [if_pos hc, if_pos hc]
      exact check_mapPort (write rd)
    · rw [if_neg hc, if_neg hc]
      rfl
  | store rs1 rs2 =>
    refine check_mapPort fun a => check_mapPort fun v => ?_
    rw [storeWord_mapPort]
    exact check_map_mapPort
  | load rs1 rs2 => exact check_mapPort fun a => check_mapPort (write rs1)
  | loadimm rd lo hi => exact write rd _
  | sub rd rs1 rs2 => exact check_mapPort fun a => check_mapPort fun b => write rd _
  | out rs1 => exact check_mapPort fun v => congrArg Host.Outcome.next (h ⟨rs1, .inl rfl⟩ _)
  | exit => rfl
  | outNumber rs1 => exact check_mapPort fun v => congrArg Host.Outcome.next (h ⟨rs1, .inr rfl⟩ _)

/-- A step commutes with a change of the port with which every offer commutes. -/
theorem step_mapPort (h : ∀ codes u, emit codes (State.mapPort g k u) = (emit codes u).mapPort g k)
    (hs : step s = .next t) : step (s.mapPort g k) = .next (t.mapPort g k) := by
  rcases step_cases s with ⟨hr, e⟩ | ⟨hr, u, hf, e⟩ | ⟨hr, i, u, hf, e⟩ <;> rw [e] at hs
  · cases hs
    exact step_of_not_running (s := s.mapPort g k) hr
  · cases hs
    exact step_of_raised hr (by rw [fetch_mapPort, hf]; rfl)
  · have hf' : fetch (s.mapPort g k) = .instr i (u.mapPort g k) := by rw [fetch_mapPort, hf]; rfl
    rw [step_of_instr (s := s.mapPort g k) hr hf', exec_mapPort fun _ codes => h codes u, hs]
    rfl

/-- An offer appends to the log whatever it held before. -/
theorem emit_mapPort_append (before codes : List Byte) (s : State) :
    emit codes (s.mapPort (before ++ ·) id) = (emit codes s).mapPort (before ++ ·) id := by
  have hk : (s.mapPort (before ++ ·) id).sink.next = s.sink.next := rfl
  rcases h : s.sink.next with _ | kept
  · rw [emit_accept h, emit_accept (hk.trans h)]
    simp [State.mapPort]
  · rw [emit_reject h, emit_reject (hk.trans h)]
    simp [State.mapPort, raise]

end Sys2Proof.Machine
end

section
/-! SUPPORT. The codes of the run state (R28, R120). -/

namespace Sys2Proof.Machine

variable {s t : State}

theorem runCode_eq_zero_iff : s.runCode = 0 ↔ s.run = .running := by
  rcases h : s.run <;> simp [State.runCode, h]

theorem runCode_eq_one_iff : s.runCode = 1 ↔ s.run = .halted := by
  rcases h : s.run <;> simp [State.runCode, h]

theorem runCode_eq_two_iff : s.runCode = 2 ↔ ∃ e, s.run = .faulted e := by
  rcases h : s.run <;> simp [State.runCode, h]

theorem errorCode_ne_zero (e : ErrorKind) : e.code ≠ 0 := by cases e <;> decide

theorem errorCode_le (e : ErrorKind) : e.code.toNat ≤ 4 := by cases e <;> decide

theorem errorCode_injective : Function.Injective ErrorKind.code := by
  intro e f
  cases e <;> cases f <;> decide

/-- `ERR` holds a kind's code exactly in a machine that faulted with it. -/
theorem errCode_eq_code_iff (e : ErrorKind) : s.errCode = e.code ↔ s.run = .faulted e := by
  rcases h : s.run with _ | _ | f
  · simpa [State.errCode, h] using (errorCode_ne_zero e).symm
  · simpa [State.errCode, h] using (errorCode_ne_zero e).symm
  · simp [State.errCode, h, errorCode_injective.eq_iff]

/-- `ERR` is NONE exactly outside FAULTED (R28). -/
theorem errCode_eq_zero_iff : s.errCode = 0 ↔ s.runCode ≠ 2 := by
  rcases h : s.run with _ | _ | e
  · simp [State.errCode, State.runCode, h]
  · simp [State.errCode, State.runCode, h]
  · simpa [State.errCode, State.runCode, h] using errorCode_ne_zero e

theorem errCode_le (s : State) : s.errCode.toNat ≤ 4 := by
  rcases h : s.run with _ | _ | e <;> simp [State.errCode, h, errorCode_le]

end Sys2Proof.Machine
end

section
/-! SUPPORT. Which effect of a handler reaches memory, and the step it belongs to (R27, R100). -/

namespace Sys2Proof.Machine

variable {s t : State}

/-- The only effect that changes memory is a store's. -/
theorem Effect.stored_of_mem_ne {i : Instr} (h : Effect i s t) (hm : t.mem ≠ s.mem) :
    ∃ r q, i = .store (regField r) (regField q) ∧ (s.reg r).toNat + 3 < 4096 ∧
      t = { s with mem := s.mem.writeBytes (s.reg r).toNat (wordBytes (s.reg q)) } := by
  cases h with
  | stored r q hi ha => exact ⟨r, q, hi, ha, rfl⟩
  | offered r codes => exact absurd (emit_mem s codes) hm
  | _ => exact absurd rfl hm

/-- A step that changes memory runs a `store` that stands at IP. -/
theorem step_mem_ne (h : step s = .next t) (hm : t.mem ≠ s.mem) :
    s.run = .running ∧ ∃ r q, s.AtIp [0x02, regField r, regField q] ∧
      ((s.setIp (s.ip + 3)).reg r).toNat + 3 < 4096 ∧
      t.mem = s.mem.writeBytes ((s.setIp (s.ip + 3)).reg r).toNat (wordBytes ((s.setIp (s.ip + 3)).reg q)) := by
  rcases step_cases s with ⟨-, e⟩ | ⟨-, u, hf, e⟩ | ⟨hr, i, u, hf, e⟩ <;> rw [e] at h
  · cases h
    exact absurd rfl hm
  · cases h
    obtain ⟨-, hu, -⟩ := fetch_raised_fields hf
    exact absurd hu hm
  · obtain ⟨hat, rfl⟩ := fetch_eq_instr hf
    obtain ⟨r, q, rfl, ha, rfl⟩ := (exec_cases h).stored_of_mem_ne hm
    exact ⟨hr, r, q, hat, ha, rfl⟩

end Sys2Proof.Machine
end

section
/-! The statements of the machine's state (spec/10). -/

namespace Sys2Proof.Machine

/-- Settles O6: construction is known part by part (`construct_eq_ok`), and memory reads as the image. -/
theorem constructionLoadsImage : Obligations.ConstructionLoadsImage := by
  intro image hl
  have hc := construct_fits hl
  obtain ⟨-, -, hreg, -, hrun, hout, -⟩ := construct_eq_ok hc
  exact ⟨_, hc, read_imageMemory hl, hreg, hrun, rfl, rfl, hout⟩

/-- Settles O11: an index is above 15 or that of a register, where a write is `reg_setReg`. -/
theorem registerAccessIsTotalAndExact : Obligations.RegisterAccessIsTotalAndExact := by
  intro i v s
  refine ⟨fun h => ⟨regRead_invalid h, regWrite_invalid v h⟩, fun h => ?_⟩
  obtain ⟨r, rfl⟩ : ∃ r : Fin Config.numRegs, i = r.val := ⟨⟨i, Nat.lt_succ_of_le h⟩, rfl⟩
  refine ⟨⟨_, regRead_valid r⟩, _, regWrite_valid r v, ?_, fun j hj => ?_, rfl, rfl, rfl, rfl⟩
  · rw [hostGetRegister, regRead_valid, reg_setReg_same]
  · rcases Nat.lt_or_ge 15 j with hb | hb
    · exact (regRead_invalid hb).trans (regRead_invalid hb).symm
    · obtain ⟨q, rfl⟩ : ∃ q : Fin Config.numRegs, j = q.val := ⟨⟨j, Nat.lt_succ_of_le hb⟩, rfl⟩
      rw [hostGetRegister, hostGetRegister, regRead_valid, regRead_valid,
        reg_setReg_other s v fun e => hj (congrArg Fin.val e.symm)]

/-- Settles O40: the condition and the source are both the advanced IP, which is not zero. -/
theorem getipGivesNextAddress : Obligations.GetipGivesNextAddress := by
  intro s rd hr h
  have hip : ((s.setIp (s.ip + 4)).reg 0).toNat = s.ip.toNat + 4 := reg_zero_toNat_of_atIp h rfl
  refine ⟨_, step_moveIf_of_ne (r := 0) (c := 0) hr h (reg_zero_ne_zero_of_atIp h rfl (by decide)), ?_, ?_,
    fun q hq => ?_, hr⟩
  · rwa [reg_setReg_same]
  · rwa [State.ip, reg_setReg, ite_self]
  · rw [List.mem_cons, List.mem_singleton, not_or] at hq
    rw [reg_setReg_other _ _ (Ne.symm hq.2), reg_setIp_other _ _ hq.1]

/-- Settles O51: a step that changes memory runs a `store` at IP (`step_mem_ne`), and the four bytes are its word's. -/
theorem onlyStoreChangesMemory : Obligations.OnlyStoreChangesMemory := by
  intro s t hw h hm
  obtain ⟨hr, r, q, hat, ha, hmem⟩ := step_mem_ne h hm
  refine ⟨hr, byte_of_atIp (k := 0) hat rfl, r, byte_of_atIp (k := 1) hat rfl, fun a hna => ?_⟩
  rw [State.byte, hmem, read_writeWord hw ha, if_neg hna]
  rfl

/-- Settles O52: what comes before the log is a change of the port with which every offer commutes. -/
theorem outputLogIsNeverRead : Obligations.OutputLogIsNeverRead := fun _ _ before h =>
  step_mapPort (emit_mapPort_append before) h

/-- Settles O60: register 0 after the advance is IP plus the length, in whichever field it is read. -/
theorem registerZeroSourceIsNextAddress : Obligations.RegisterZeroSourceIsNextAddress := by
  intro s r q hr
  refine ⟨fun h hc => ?moveIfSource, fun h => ?moveIfCondition, fun h => ?subMinuend, fun h => ?subSubtrahend,
    fun h ha => ?loadAddress, fun h hw ha => ?storeAddress, fun h hw ha => ?storeValue, fun h hk => ?out,
    fun h hk => ?outNumber⟩
  case moveIfSource =>
    refine ⟨_, step_moveIf_of_ne (r := 0) hr h hc, ?_⟩
    rw [reg_setReg_same]
    exact reg_zero_toNat_of_atIp h rfl
  case moveIfCondition =>
    exact ⟨_, step_moveIf_of_ne (c := 0) hr h (reg_zero_ne_zero_of_atIp h rfl (by decide)), reg_setReg_same _ _ _⟩
  case subMinuend =>
    refine ⟨_, step_sub (r := 0) hr h, ?_⟩
    rw [reg_setReg_same, subtract_toNat]
    exact congrArg (fun n : Nat => ((n : Int) - _) % 2 ^ 32) (reg_zero_toNat_of_atIp h rfl)
  case subSubtrahend =>
    refine ⟨_, step_sub (q := 0) hr h, ?_⟩
    rw [reg_setReg_same, subtract_toNat]
    exact congrArg (fun n : Nat => (_ - (n : Int)) % 2 ^ 32) (reg_zero_toNat_of_atIp h rfl)
  case loadAddress =>
    have hip : ((s.setIp (s.ip + 3)).reg 0).toNat = s.ip.toNat + 3 := reg_zero_toNat_of_atIp h rfl
    refine ⟨_, step_load (r := 0) hr h (loadWord_inRange (by omega)), ?_⟩
    rw [reg_setReg_same, wordOfBytes_toNat, hip]
    rfl
  case storeAddress =>
    have hip : ((s.setIp (s.ip + 3)).reg 0).toNat = s.ip.toNat + 3 := reg_zero_toNat_of_atIp h rfl
    have hs := step_store_bytes (r := 0) hr hw h (by rwa [hip])
    rwa [hip] at hs
  case storeValue =>
    have hip : ((s.setIp (s.ip + 3)).reg 0).toNat = s.ip.toNat + 3 := reg_zero_toNat_of_atIp h rfl
    have hs := step_store_bytes (q := 0) hr hw h ha
    rwa [hip] at hs
  case out =>
    refine ⟨_, step_out (r := 0) hr h, ?_⟩
    rw [emit_out_of_accept (s := s.setIp (s.ip + 2)) hk, lowCode_eq_ofNat]
    exact congrArg (fun n => s.out ++ [BitVec.ofNat 8 n]) (reg_zero_toNat_of_atIp h rfl)
  case outNumber =>
    have hip : ((s.setIp (s.ip + 2)).reg 0).toNat = s.ip.toNat + 2 := reg_zero_toNat_of_atIp h rfl
    have hle : s.ip.toNat + 2 ≤ 4096 := h.1
    refine ⟨_, step_outNumber (r := 0) hr h, ?_⟩
    rw [emit_out_of_accept (s := s.setIp (s.ip + 2)) hk, signed32_of_lt (by omega), hip]
    rfl

/-- Settles O48: a canonical memory, and a run state that leaves the second part nothing to say. -/
theorem constructedMachinesMeetInvariant : Obligations.ConstructedMachinesMeetInvariant := by
  refine ⟨⟨reset_wf, fun h => absurd reset_run h⟩, fun image s h => ?_⟩
  obtain ⟨hl, hmem, -, -, hrun, -, -⟩ := construct_eq_ok h
  exact ⟨hmem ▸ imageMemory_wf hl, fun hne => absurd hrun hne⟩

/-- Settles O59: each clause is one code. -/
theorem runStateCodes : Obligations.RunStateCodes := fun s =>
  ⟨runCode_eq_zero_iff.symm, runCode_eq_one_iff.symm, runCode_eq_two_iff.symm, errCode_eq_zero_iff, errCode_le s,
    (errCode_eq_code_iff _).symm, (errCode_eq_code_iff _).symm, (errCode_eq_code_iff _).symm,
    (errCode_eq_code_iff _).symm⟩

end Sys2Proof.Machine
end

section
/-! SUPPORT. A word access through the state (R41, R43, R44): when it answers, what a store that answers leaves in
memory, and the steps of `store` and of `exit`, the instruction that stored bytes can become (R55). -/

namespace Sys2Proof.Machine

variable {s t : State} {a v w : Word}

/-- A load answers exactly inside memory (R41). -/
theorem loadWord_answers_iff : (∃ x, loadWord a s = .ok x) ↔ a.toNat + 3 < 4096 := by
  by_cases h : a.toNat + 3 < 4096
  · exact iff_of_true ⟨_, loadWord_inRange h⟩ h
  · refine iff_of_false (fun ⟨x, hx⟩ => ?_) h
    rw [loadWord_outside (Nat.le_of_not_lt h)] at hx
    cases hx

/-- A store answers exactly inside memory (R41). -/
theorem storeWord_answers_iff : (∃ t, storeWord a v s = .ok t) ↔ a.toNat + 3 < 4096 :=
  ⟨fun ⟨_, ht⟩ => (storeWord_eq_ok ht).1, fun h => ⟨_, storeWord_inRange h⟩⟩

/-- A store writes memory and nothing else (R44). -/
theorem storeWord_frame (h : storeWord a v s = .ok t) :
    t.regs = s.regs ∧ t.run = s.run ∧ t.out = s.out ∧ t.sink = s.sink := by
  obtain ⟨-, rfl⟩ := storeWord_eq_ok h
  exact ⟨rfl, rfl, rfl, rfl⟩

theorem storeWord_ip (h : storeWord a v s = .ok t) : t.ip = s.ip := by
  obtain ⟨-, rfl⟩ := storeWord_eq_ok h
  rfl

theorem storeWord_wf (hw : s.mem.wf = true) (h : storeWord a v s = .ok t) : t.mem.wf = true := by
  obtain ⟨ha, rfl⟩ := storeWord_eq_ok h
  exact writeWord_wf hw ha

/-- Every byte after a store: the word's at its four addresses, what was there elsewhere. -/
theorem storeWord_byte (hw : s.mem.wf = true) (h : storeWord a v s = .ok t) (x : Nat) :
    t.byte x = if a.toNat ≤ x ∧ x < a.toNat + 4 then wordByte v (x - a.toNat) else s.byte x := by
  obtain ⟨ha, rfl⟩ := storeWord_eq_ok h
  exact read_writeWord hw ha x

theorem storeWord_byte_add (hw : s.mem.wf = true) (h : storeWord a v s = .ok t) {k : Nat} (hk : k < 4) :
    t.byte (a.toNat + k) = wordByte v k := by
  rw [storeWord_byte hw h, if_pos (by omega), Nat.add_sub_cancel_left]

theorem storeWord_byte_other (hw : s.mem.wf = true) (h : storeWord a v s = .ok t) {x : Nat}
    (hx : x < a.toNat ∨ a.toNat + 4 ≤ x) : t.byte x = s.byte x := by
  rw [storeWord_byte hw h, if_neg (by omega)]

/-- The low two bytes of `v` below the low two bytes of `w` are the low halves (R47). -/
theorem wordOfBytes_halves_toNat (v w : Word) :
    (wordOfBytes (wordByte v 0) (wordByte v 1) (wordByte w 0) (wordByte w 1)).toNat =
      v.toNat % 2 ^ 16 + 2 ^ 16 * (w.toNat % 2 ^ 16) := by
  simp only [wordOfBytes_toNat, wordByte_toNat]
  omega

/-- A byte inside memory at IP is the one byte that stands there. -/
theorem atIp_singleton {b : Byte} (hip : s.ip.toNat < 4096) (hb : s.byte s.ip.toNat = b) : s.AtIp [b] :=
  ⟨hip, by rw [← hb]; rfl⟩

/-- The step of a `store` whose word access answers (R77, R100). -/
theorem step_store_of_ok {r q : Fin Config.numRegs} (hr : s.run = .running)
    (h : s.AtIp [0x02, regField r, regField q])
    (ht : storeWord ((s.setIp (s.ip + 3)).reg r) ((s.setIp (s.ip + 3)).reg q) (s.setIp (s.ip + 3)) = .ok t) :
    step s = .next t := by
  obtain ⟨ha, rfl⟩ := storeWord_eq_ok ht
  exact step_store hr h ha

/-- The step of `exit` (R77, R112). -/
theorem step_exit (hr : s.run = .running) (h : s.AtIp [0x07]) :
    step s = .next { s.setIp (s.ip + 1) with run := .halted } :=
  step_of_atIp (i := .exit) hr h

end Sys2Proof.Machine
end

section
/-! The statements of memory (spec/20). -/

namespace Sys2Proof.Machine

/-- Settles O12: the word of the four bytes, as a number. -/
theorem loadWordIsLittleEndian : Obligations.LoadWordIsLittleEndian := fun _ _ =>
  ⟨loadWord_outside, fun h => ⟨_, loadWord_inRange h, wordOfBytes_toNat _ _ _ _⟩⟩

/-- Settles O13: each byte by `storeWord_byte`, the rest of the state by `storeWord_frame`. -/
theorem storeWordWritesFourBytes : Obligations.StoreWordWritesFourBytes := by
  intro a v s hw
  refine ⟨storeWord_outside, fun ha => ?_⟩
  obtain ⟨t, ht⟩ := storeWord_answers_iff (s := s) (v := v).2 ha
  refine ⟨t, ht, fun k hk => ?_, fun b hb => storeWord_byte_other hw ht hb, storeWord_frame ht⟩
  rw [storeWord_byte_add hw ht hk, wordByte_toNat]

/-- Settles O14: the four bytes are the word's, and a word is the word of its bytes. -/
theorem loadAfterStoreReturnsWord : Obligations.LoadAfterStoreReturnsWord := by
  intro a v s t hw ht
  obtain ⟨ha, -⟩ := storeWord_eq_ok ht
  have h0 : t.byte a.toNat = wordByte v 0 := storeWord_byte_add hw ht (k := 0) (by decide)
  rw [loadWord_inRange ha, h0, storeWord_byte_add hw ht (by decide), storeWord_byte_add hw ht (by decide),
    storeWord_byte_add hw ht (by decide), wordOfBytes_wordBytes]

/-- Settles O15: `storeWord_byte` for the later store, and for the earlier one where the later did not write. -/
theorem overlappingStoresMixBytes : Obligations.OverlappingStoresMixBytes := by
  intro a b v w s hw ha hb
  obtain ⟨t, ht⟩ := storeWord_answers_iff (a := a) (v := v) (s := s).2 (by omega)
  obtain ⟨u, hu⟩ := storeWord_answers_iff (a := b) (v := w) (s := t).2 (by omega)
  have hwt := storeWord_wf hw ht
  refine ⟨t, u, _, ht, hu, loadWord_inRange (by omega), fun c => ?bytes, fun hab => ?halves⟩
  case bytes =>
    rw [storeWord_byte hwt hu, storeWord_byte hw ht]
    simp only [apply_ite BitVec.toNat, wordByte_toNat]
  case halves =>
    have h0 : u.byte a.toNat = wordByte v 0 :=
      (storeWord_byte_other hwt hu (by omega)).trans (storeWord_byte_add hw ht (k := 0) (by decide))
    have h1 : u.byte (a.toNat + 1) = wordByte v 1 :=
      (storeWord_byte_other hwt hu (by omega)).trans (storeWord_byte_add hw ht (by decide))
    have h2 : u.byte (a.toNat + 2) = wordByte w 0 := hab ▸ storeWord_byte_add hwt hu (k := 0) (by decide)
    have h3 : u.byte (a.toNat + 3) = wordByte w 1 := by
      rw [show a.toNat + 3 = b.toNat + 1 by omega, storeWord_byte_add hwt hu (by decide)]
    rw [h0, h1, h2, h3, wordOfBytes_halves_toNat]

/-- Settles O54: the byte stored at the advanced IP is the opcode of `exit`, and the next fetch reads it. -/
theorem storedExitIsFetchedNext : Obligations.StoredExitIsFetchedNext := by
  intro s r q hw hr hat ha hle hv
  have hip : (s.setIp (s.ip + 3)).ip.toNat = s.ip.toNat + 3 := reg_zero_toNat_of_atIp hat rfl
  obtain ⟨t, ht⟩ := storeWord_answers_iff (s := s.setIp (s.ip + 3)) (a := (s.setIp (s.ip + 3)).reg r)
    (v := (s.setIp (s.ip + 3)).reg q).2 (by omega)
  obtain ⟨-, hrt, -, -⟩ := storeWord_frame ht
  have hipt : t.ip.toNat = s.ip.toNat + 3 := by rw [storeWord_ip ht, hip]
  have hb : t.byte t.ip.toNat = 0x07 := by
    rw [hipt, ← ha]
    refine (storeWord_byte_add (s := s.setIp (s.ip + 3)) hw ht (k := 0) (by decide)).trans
      (BitVec.eq_of_toNat_eq ?_)
    rw [wordByte_toNat, Nat.mul_zero, Nat.pow_zero, Nat.div_one, hv]
    rfl
  have hexit : t.AtIp [0x07] := atIp_singleton (by omega) hb
  refine ⟨t, _, step_store_of_ok hr hat ht, hrt.trans hr, step_exit (hrt.trans hr) hexit, rfl, ?_⟩
  calc ((t.setIp (t.ip + 1)).reg 0).toNat
    _ = t.ip.toNat + 1 := reg_zero_toNat_of_atIp hexit rfl
    _ = s.ip.toNat + 4 := by rw [hipt]

/-- Settles O16: an access answers exactly where its last byte lies inside memory, on exact integers. -/
theorem wordAccessBoundIsExact : Obligations.WordAccessBoundIsExact := by
  intro a v s
  have hb : a.toNat + 3 < 4096 ↔ a.toNat ≤ 4092 := by omega
  exact ⟨loadWord_answers_iff.trans hb, storeWord_answers_iff.trans hb, loadWord_outside (by decide)⟩

end Sys2Proof.Machine
end

section
/-! SUPPORT. The number `I` of R64: the bytes of an instruction read as a little-endian number, and the bytes of a table
word, are the same bytes, zero above the instruction up to the longest one. -/

namespace Sys2Proof

open Machine

theorem littleEndian_lt (bytes : List Byte) : littleEndian bytes < 2 ^ (8 * bytes.length) := by
  induction bytes with
  | nil => decide
  | cons b bs ih =>
    have hb := b.isLt
    rw [littleEndian, List.length_cons, Nat.mul_succ, Nat.add_comm, Nat.pow_add]
    omega

/-- Byte `k` of the number is byte `k` of the list, and zero beyond it. -/
theorem littleEndian_byte (bytes : List Byte) (k : Nat) :
    BitVec.ofNat 8 (littleEndian bytes / 2 ^ (8 * k)) = (bytes[k]?).getD 0 := by
  induction bytes generalizing k with
  | nil => simp [littleEndian]
  | cons b bs ih =>
    have hb := b.isLt
    cases k with
    | zero =>
      apply BitVec.eq_of_toNat_eq
      rw [littleEndian, BitVec.toNat_ofNat, Nat.mul_zero, Nat.pow_zero, Nat.div_one, List.getElem?_cons_zero,
        Option.getD_some]
      omega
    | succ k =>
      have hshift : littleEndian (b :: bs) / 2 ^ (8 * (k + 1)) = littleEndian bs / 2 ^ (8 * k) := by
        rw [littleEndian, Nat.mul_succ, Nat.add_comm (8 * k), Nat.pow_add, ← Nat.div_div_eq_div_mul,
          Nat.add_mul_div_left _ _ (by decide), Nat.div_eq_of_lt hb, Nat.zero_add]
      rw [hshift, ih, List.getElem?_cons_succ]

/-- The bytes of a table word that holds `bytes`, whatever stands above its bits. -/
theorem tableBytes_littleEndian {bytes : List Byte} (h : bytes.length ≤ maxLength) (above : Nat) :
    tableBytes (8 * bytes.length) (littleEndian bytes + 2 ^ (8 * bytes.length) * above) =
      bytes ++ List.replicate (maxLength - bytes.length) 0 := by
  rw [tableBytes, Nat.add_mul_mod_self_left, Nat.mod_eq_of_lt (littleEndian_lt bytes)]
  simp only [littleEndian_byte]
  refine List.ext_getElem (by simp; omega) fun k hk _ => ?_
  by_cases hb : k < bytes.length
  · simp [hb]
  · simp [hb, List.getElem_append_right (Nat.le_of_not_gt hb)]

/-- A table word is read as the instruction its bytes decode to. -/
theorem decodeTableWord_eq_some_iff {nbits w : Nat} {i : Instr} :
    decodeTableWord nbits w = some i ↔ ∃ rest, decode (tableBytes nbits w) = .ok (i, rest) := by
  unfold decodeTableWord
  rcases decode (tableBytes nbits w) with e | ⟨j, rest⟩ <;> simp

theorem decodeTableWord_encode (i : Instr) (above : Nat) :
    decodeTableWord (8 * i.length) (littleEndian (encode i) + 2 ^ (8 * i.length) * above) = some i := by
  have hb := tableBytes_littleEndian (bytes := encode i) (by rw [encode_length]; exact instr_length_le i) above
  rw [encode_length] at hb
  exact decodeTableWord_eq_some_iff.2 ⟨_, hb ▸ decode_encode_append i _⟩

/-! The opcode byte -/

/-- Whatever follows it, an opcode byte is refused exactly where it is undefined: a defined one decodes or is cut off
(R67, R68). -/
theorem decode_eq_illegal_iff {op : Byte} {bytes : List Byte} :
    decode (op :: bytes) = .error (.illegalOpcode op) ↔ illegalByte op := by
  rw [illegalByte, ← ofByte?_eq_none]
  rcases ho : Opcode.ofByte? op with _ | o
  · simp [decode_cons_none ho]
  · rcases decodeOperands_cases o bytes with ⟨i, rest, hd, -, -⟩ | ⟨hd, -⟩ <;>
      simp [decode_cons_some ho, hd]

/-- 248 byte values are no opcode: 0x00, and the 247 from 0x09 on (R68). -/
theorem undefined_opcode_count :
    ((List.range 256).filter fun n => (Opcode.ofByte? (BitVec.ofNat 8 n)).isNone).length = 248 := by
  have hlow : ((List.range 9).filter fun n => (Opcode.ofByte? (BitVec.ofNat 8 n)).isNone).length = 1 := by decide
  have hhigh : ∀ n ∈ (List.range 247).map (9 + ·), (Opcode.ofByte? (BitVec.ofNat 8 n)).isNone = true := by
    intro n hn
    obtain ⟨k, hk, rfl⟩ := List.mem_map.1 hn
    rw [List.mem_range] at hk
    rw [Option.isNone_iff_eq_none, ofByte?_eq_none, BitVec.toNat_ofNat]
    omega
  rw [show 256 = 9 + 247 from rfl, List.range_add, List.filter_append, List.length_append, hlow,
    List.filter_eq_self.2 hhigh, List.length_map, List.length_range]

/-- An instruction that decodes begins with its opcode byte, and its bytes are consumed (R61). -/
theorem decode_cons_eq_ok {op : Byte} {bytes rest : List Byte} {i : Instr} (h : decode (op :: bytes) = .ok (i, rest)) :
    op = i.opcode.toByte ∧ rest.length + i.length = bytes.length + 1 := by
  have hb := encode_of_decode h
  obtain ⟨operands, he⟩ := encode_head i
  constructor
  · rw [he, List.cons_append] at hb
    exact (List.cons.inj hb).1.symm
  · have hl := congrArg List.length hb
    rw [List.length_append, encode_length, List.length_cons] at hl
    omega

/-- The lengths of R62 by the opcode byte. -/
theorem length_of_toByte (o : Opcode) :
    o.length = if o.toByte = 1 ∨ o.toByte = 4 ∨ o.toByte = 5 then 4 else if o.toByte = 2 ∨ o.toByte = 3 then 3
      else if o.toByte = 7 then 1 else 2 := by
  cases o <;> decide

end Sys2Proof
end

section
/-! SUPPORT. The fetch of the bytes that stand at IP, whoever placed them there, and what a step answers (R72 to R82). -/

namespace Sys2Proof.Machine

variable {s s' t : State} {i : Instr} {bytes : List Byte}

/-- The first of the bytes that stand at IP stand there. -/
theorem atIp_of_append {rest : List Byte} (h : s.AtIp (bytes ++ rest)) : s.AtIp bytes := by
  obtain ⟨hl, hb⟩ := h
  rw [List.length_append] at hl hb
  rw [bytes_add] at hb
  exact ⟨by omega, List.append_inj_left hb (bytes_length _ _ _)⟩

/-- What stands at IP depends on IP and on those bytes of memory alone. -/
theorem atIp_congr (h : s.AtIp bytes) (hip : s'.ip = s.ip)
    (hm : ∀ k, k < bytes.length → s'.byte (s.ip.toNat + k) = s.byte (s.ip.toNat + k)) : s'.AtIp bytes := by
  obtain ⟨hl, hb⟩ := h
  rw [State.AtIp, hip, bytes_congr hm]
  exact ⟨hl, hb⟩

@[simp] theorem placeAtIp_ip (s : State) (bytes : List Byte) : (placeAtIp s bytes).ip = s.ip := rfl

/-- Memory from IP on after bytes that fit there are placed: those bytes, and beyond them what was there. -/
theorem placeAtIp_byte (hw : s.mem.wf = true) (hl : s.ip.toNat + bytes.length ≤ 4096) (k : Nat) :
    (placeAtIp s bytes).byte (s.ip.toNat + k) = (bytes[k]?).getD (s.byte (s.ip.toNat + k)) := by
  have htake : bytes.take (Config.memorySize - s.ip.toNat) = bytes :=
    List.take_of_length_le (Nat.le_sub_of_add_le' hl)
  rw [placeAtIp, htake, byte_withMem, read_writeBytes hw hl, if_pos (Nat.le_add_right _ _), Nat.add_sub_cancel_left,
    State.byte]

/-- Bytes that are placed at IP and fit there stand there. -/
theorem placeAtIp_atIp (hw : s.mem.wf = true) (hl : s.ip.toNat + bytes.length ≤ 4096) :
    (placeAtIp s bytes).AtIp bytes := by
  refine ⟨hl, List.ext_getElem? fun k => ?_⟩
  rw [bytes_getElem?, placeAtIp_ip, placeAtIp_byte hw hl]
  by_cases hk : k < bytes.length
  · rw [if_pos hk, List.getElem?_eq_getElem hk, Option.getD_some]
  · rw [if_neg hk, List.getElem?_eq_none (Nat.le_of_not_gt hk)]

/-- The fetch of an instruction whose bytes stand at IP (R76, R77). -/
theorem fetch_of_atIp (h : s.AtIp (encode i)) : fetch s = .instr i (advanceIp i s) := by
  obtain ⟨rest, hw⟩ := fetchWindow_of_atIp h
  exact (fetch_of_decode (hw ▸ decode_encode_append i rest)).1

/-- F2: a defined opcode whose instruction does not lie inside memory (R75). -/
theorem fetch_truncated {o : Opcode} (h : s.ip.toNat < 4096) (ho : Opcode.ofByte? (s.byte s.ip.toNat) = some o)
    (hl : 4096 < s.ip.toNat + o.length) : fetch s = .raised (pinFault s) := by
  rcases fetch_defined h ho with ⟨i, rest, -, -, hi, hle⟩ | ⟨-, hf, -⟩
  · rw [Instr.length, hi] at hle
    omega
  · exact hf

/-- The advance over one byte inside memory does not overflow. -/
theorem ip_succ_toNat (h : s.ip.toNat < 4096) : (s.ip + 1).toNat = s.ip.toNat + 1 :=
  advance_toNat (i := .exit) h

/-- A raise of the fetch depends on IP and the opcode byte alone: it pins IP at the sentinel with `MemoryOverflow` (F0,
F2) or leaves it one past the opcode with `InstructionError` (F1). -/
theorem fetch_eq_raised (h : fetch s = .raised t) : ∃ v e,
    (e = .memoryOverflow ∧ v = 4096 ∨ e = .instructionError ∧ v.toNat = s.ip.toNat + 1) ∧ t = raise e (s.setIp v) ∧
      ∀ s' : State, s'.ip = s.ip → s'.byte s.ip.toNat = s.byte s.ip.toNat → fetch s' = .raised (raise e (s'.setIp v)) := by
  rcases fetch_cases s with ⟨ho, e⟩ | ⟨hl, hn, e⟩ | ⟨hl, ⟨o, ho, ht⟩, e⟩ | ⟨_, _, _, _, _, e⟩ <;> rw [e] at h <;> cases h
  · exact ⟨4096, .memoryOverflow, .inl ⟨rfl, rfl⟩, rfl, fun s' hip _ => fetch_outside (by rwa [hip])⟩
  · refine ⟨s.ip + 1, .instructionError, .inr ⟨rfl, ip_succ_toNat hl⟩, rfl, fun s' hip hb => ?_⟩
    rw [← hip]
    exact fetch_illegal (by rwa [hip]) (by rwa [hip, hb])
  · exact ⟨4096, .memoryOverflow, .inl ⟨rfl, rfl⟩, rfl, fun s' hip hb =>
      fetch_truncated (by rwa [hip]) (by rwa [hip, hb]) (by rwa [hip])⟩

/-- A handler keeps the run state, faults, or is `exit` and halts. -/
theorem Effect.run_cases (h : Effect i s t) :
    (i ≠ .exit ∧ t.run = s.run) ∨ (i = .exit ∧ t.run = .halted) ∨ ∃ e, t.run = .faulted e := by
  cases h with
  | same hi => exact .inl ⟨(by rintro rfl; cases hi), rfl⟩
  | badField => exact .inr (.inr ⟨_, rfl⟩)
  | badAddress => exact .inr (.inr ⟨_, rfl⟩)
  | wrote r v hi => exact .inl ⟨(by rintro rfl; simp at hi), rfl⟩
  | stored r q hi => exact .inl ⟨(by rintro rfl; cases hi), rfl⟩
  | offered r codes hi =>
    rcases (emit_effect codes s).2 with hr | hr
    · exact .inl ⟨(by rintro rfl; simp at hi), hr⟩
    · exact .inr (.inr ⟨_, hr⟩)
  | halted hi => exact .inr (.inl ⟨hi, rfl⟩)

theorem result_of_running (h : s.run = .running) : s.result = .cont := by rw [State.result, h]

theorem result_of_halted (h : s.run = .halted) : s.result = .halted := by rw [State.result, h]

theorem result_of_faulted {e : ErrorKind} (h : s.run = .faulted e) : s.result = .err e := by rw [State.result, h]

end Sys2Proof.Machine
end

section
/-! SUPPORT. The handlers that write a register without reading one or under a false condition, and the immediates of the
pseudo-instructions (R71, R81). -/

namespace Sys2Proof.Machine

variable {s : State} {d r c : Fin Config.numRegs}

/-- Writing a register's own value changes nothing. -/
@[simp] theorem setReg_reg_self (s : State) (r : Fin Config.numRegs) : s.setReg r (s.reg r) = s := by
  simp [State.setReg, State.reg]

theorem exec_loadimm (lo hi : Byte) :
    exec (.loadimm (regField d) lo hi) s = .next (s.setReg d (immediate lo hi)) := by
  simp [exec, execLoadimm]

/-- A false condition (R90). -/
theorem exec_moveIf_of_eq_zero (rd rs1 : Byte) (hc : s.reg c = 0) :
    exec (.moveIf rd rs1 (regField c)) s = .next s := by
  simp [exec, execMoveIf, nonZero, hc]

theorem immediate_eq_signExtend (lo hi : Byte) : immediate lo hi = (hi ++ lo : BitVec 16).signExtend 32 := by
  rw [immediate, imm16_eq_append]

/-- The two immediate bytes of `li` are those of its immediate. -/
theorem immediate_extractLsb' (imm : BitVec 16) :
    immediate (imm.extractLsb' 0 8) (imm.extractLsb' 8 8) = imm.signExtend 32 := by
  have himm : imm16 (imm.extractLsb' 0 8) (imm.extractLsb' 8 8) = imm := by
    apply BitVec.eq_of_toNat_eq
    rw [imm16_toNat]
    simp only [BitVec.extractLsb'_toNat, Nat.shiftRight_eq_div_pow]
    have := imm.isLt
    omega
  rw [immediate, himm]

/-- A target up to 0x7FFF is its own sign extension. -/
theorem signExtend_toNat_of_le {imm : BitVec 16} (h : imm.toNat ≤ 0x7FFF) : (imm.signExtend 32).toNat = imm.toNat := by
  have hm : imm.msb = false := by
    rw [BitVec.msb_eq_decide, decide_eq_false_iff_not]
    omega
  rw [BitVec.signExtend_eq_setWidth_of_msb_false hm, BitVec.toNat_setWidth]
  omega

theorem exec_pseudoLi (imm : BitVec 16) :
    exec (pseudoLi (regField d) imm) s = .next (s.setReg d (imm.signExtend 32)) := by
  rw [pseudoLi, exec_loadimm, immediate_extractLsb']

end Sys2Proof.Machine
end

section
/-! The statements of encoding and of the step (spec/30). -/

namespace Sys2Proof.Machine

/-- Settles O1: the bytes by `decode_encode_append`, the number because its bytes are those bytes. -/
theorem decodeOfEncodeIsIdentity : Obligations.DecodeOfEncodeIsIdentity := fun i =>
  ⟨decode_encode_append i, decodeTableWord_encode i⟩

/-- Settles O2: `encode_of_decode`. -/
theorem encodeOfDecodeIsIdentity : Obligations.EncodeOfDecodeIsIdentity := fun _ _ _ => encode_of_decode

/-- Settles O3: the refusal is `decode_eq_illegal_iff`, the count `undefined_opcode_count`. -/
theorem illegalOpcodesAreExactlyTheUndefined : Obligations.IllegalOpcodesAreExactlyTheUndefined :=
  ⟨fun _ _ => decode_eq_illegal_iff, undefined_opcode_count⟩

/-- Settles O4: the opcode byte is that of the instruction, whose length is the opcode's. -/
theorem opcodeByteSetsLength : Obligations.OpcodeByteSetsLength := by
  intro op bytes i rest h
  obtain ⟨rfl, hl⟩ := decode_cons_eq_ok h
  exact ⟨length_of_toByte i.opcode, hl⟩

/-- Settles O19: `step_of_atIp`. -/
theorem encodedInstructionAtIpRuns : Obligations.EncodedInstructionAtIpRuns := fun _ _ => step_of_atIp

/-- Settles O20: the table word's bytes stand at IP, and the first of them are the instruction's. -/
theorem placedWordRunsNext : Obligations.PlacedWordRunsNext := by
  intro s nbits w i hw hr hl hd
  obtain ⟨rest, hdec⟩ := decodeTableWord_eq_some_iff.1 hd
  have hat : (s.withFetchWord nbits w).AtIp (tableBytes nbits w) :=
    placeAtIp_atIp hw (by rwa [tableBytes_length])
  rw [← encode_of_decode hdec] at hat
  exact step_of_atIp hr (atIp_of_append hat)

/-- Settles O23: `fetch_truncated`; at 4095 the one byte of `exit` lies inside memory. -/
theorem boundaryCheckPinsIp : Obligations.BoundaryCheckPinsIp := by
  intro s o hr hip ho
  refine ⟨fun hl => step_of_raised hr (fetch_truncated hip ho (by omega)), fun _ he => ?_⟩
  subst he
  exact ⟨_, step_exit hr (atIp_singleton hip (ofByte?_eq_some ho)), rfl⟩

/-- Settles O24: an instruction is fetched from its own bytes (`atIp_congr`), a raise is known by `fetch_eq_raised`. -/
theorem fetchTouchesOnlyIp : Obligations.FetchTouchesOnlyIp := by
  intro s
  refine ⟨fun i t h => ?instr, fun t h => ?raised⟩
  case instr =>
    obtain ⟨hat, rfl⟩ := fetch_eq_instr h
    rw [ip_setIp]
    refine ⟨rfl, fun s' hip hm => ?_⟩
    rw [fetch_of_atIp (atIp_congr hat hip (by rwa [encode_length])), advanceIp, hip]
  case raised =>
    obtain ⟨v, e, hv, rfl, hcongr⟩ := fetch_eq_raised h
    rw [raise_ip, ip_setIp]
    exact ⟨e, rfl, hv, hcongr⟩

/-- Settles O27: the three run states a handler can leave a running machine in (`Effect.run_cases`). -/
theorem stepAnswersContinueHaltedOrError : Obligations.StepAnswersContinueHaltedOrError := by
  intro s i rest hr hd
  obtain ⟨t, ht, heff⟩ := exec_effect i (advanceIp i s)
  refine ⟨t, (step_of_instr hr (fetch_of_decode hd).1).trans ht, fun hne => ?_, fun e => result_of_faulted⟩
  rcases heff.run_cases with ⟨hi, hrt⟩ | ⟨hi, hrt⟩ | ⟨e, hrt⟩
  · rw [if_neg hi, result_of_running (hrt.trans hr)]
  · rw [if_pos hi, result_of_halted hrt]
  · exact absurd hrt (hne e)

/-- Settles O39: each handler writes its destination register, here IP. -/
theorem writingRegisterZeroJumps : Obligations.WritingRegisterZeroJumps := by
  intro r q lo hi s
  refine ⟨fun hq => ⟨_, exec_moveIf_of_ne (d := 0) hq, ?_⟩, ⟨_, exec_sub (d := 0), ?_⟩,
    ⟨_, exec_loadimm (d := 0) lo hi, ?_⟩, fun w hw => ⟨_, exec_load (d := 0) hw, ?_⟩⟩
  · exact reg_setReg_same s 0 _
  · exact (reg_setReg_same s 0 _).trans (subtract_eq _ _)
  · exact (reg_setReg_same s 0 _).trans (immediate_eq_signExtend lo hi)
  · exact reg_setReg_same s 0 _

/-- Settles O41: the expansion of each pseudo-instruction, by its handler. -/
theorem pseudoInstructionsHaveTheirEffects : Obligations.PseudoInstructionsHaveTheirEffects := by
  intro rd rt rc imm s
  refine ⟨exec_pseudoLi imm, fun himm => ?jmp, ?jnz, ?clr, fun hip => exec_moveIf_of_ne (r := 0) (c := 0) hip, ?nop, rfl⟩
  case jmp =>
    refine ⟨_, exec_pseudoLi (d := 0) imm, ?_⟩
    rw [State.ip, reg_setReg_same, signExtend_toNat_of_le himm]
  case jnz =>
    by_cases hc : s.reg rc = 0
    · exact ⟨s, exec_moveIf_of_eq_zero 0 _ hc, (if_neg (not_not_intro hc)).symm⟩
    · refine ⟨_, exec_moveIf_of_ne (d := 0) hc, ?_⟩
      rw [if_pos hc]
      exact reg_setReg_same s 0 _
  case clr =>
    have hsub : subtract (s.reg rd) (s.reg rd) = 0 := (subtract_eq _ _).trans (BitVec.sub_self _)
    exact ⟨_, exec_sub.trans (by rw [hsub]), reg_setReg_same s rd 0, rfl⟩
  case nop =>
    by_cases hip : s.ip = 0
    · exact exec_moveIf_of_eq_zero (c := 0) 0 0 hip
    · exact (exec_moveIf_of_ne (d := 0) (r := 0) (c := 0) hip).trans (by rw [setReg_reg_self])

/-- Settles O5: each word is the encoding of its instruction. -/
theorem wordsFromTheSpecDecode : Obligations.WordsFromTheSpecDecode :=
  ⟨decode_encode_append (.moveIf 3 1 2) [], decode_encode_append (.store 1 2) [], decode_encode_append (.load 3 1) [],
    decode_encode_append (.loadimm 1 0x34 0x12) [], decode_encode_append (.sub 3 1 2) [],
    decode_encode_append (.out 1) [], decode_encode_append .exit [], decode_encode_append (.outNumber 3) []⟩

/-- Settles O18: `fetch_of_decode` and the advance that does not overflow. -/
theorem stepRunsDecodedInstruction : Obligations.StepRunsDecodedInstruction := by
  intro s i rest hr hd
  obtain ⟨hf, hl⟩ := fetch_of_decode hd
  exact ⟨step_of_instr hr hf, advance_toNat hl, hl⟩

/-- Settles O21: `fetch_outside`. -/
theorem fetchOutsideMemoryPinsIp : Obligations.FetchOutsideMemoryPinsIp := fun _ hr hip =>
  step_of_raised hr (fetch_outside hip)

/-- Settles O22: `fetch_illegal`, whose advance stays inside memory or ends one past it. -/
theorem illegalOpcodeAdvancesIpByOne : Obligations.IllegalOpcodeAdvancesIpByOne := fun _ hr hip hb =>
  ⟨step_of_raised hr (fetch_illegal hip (ofByte?_eq_none.2 hb)), ip_succ_toNat hip, hip⟩

end Sys2Proof.Machine
end

section
/-! SUPPORT. The register operations (R90 to R92): how a bad field ends them, and the states they can leave. -/

namespace Sys2Proof.Machine

variable {s t : State} {f : Byte}

theorem regField_le (r : Fin Config.numRegs) : (regField r).toNat ≤ 15 := by
  rw [regField_toNat]
  exact Nat.le_of_lt_succ r.isLt

/-- A read field and what follows it raise together: the field is bad, or what follows raises for every value. -/
theorem check_readField_overflow {k : Word → Outcome}
    (h : 15 < f.toNat ∨ ∀ v, k v = .next (raise .registerOverflow s)) :
    check (readField f s) s k = .next (raise .registerOverflow s) := by
  rcases readField_cases f s with ⟨r, rfl, hr⟩ | ⟨-, hr⟩
  · rw [hr, check_ok]
    exact h.resolve_left (Nat.not_lt.2 (regField_le r)) _
  · rw [hr, check_error]

/-- A bad destination. -/
theorem check_writeField_overflow {k : State → Outcome} (v : Word) (h : 15 < f.toNat) :
    check (writeField f v s) s k = .next (raise .registerOverflow s) := by
  rw [writeField_invalid v h, check_error]

/-- A bad condition field (R90). -/
theorem exec_moveIf_bad_condition {rs2 : Byte} (rd rs1 : Byte) (h : 15 < rs2.toNat) :
    exec (.moveIf rd rs1 rs2) s = .next (raise .registerOverflow s) :=
  check_readField_overflow (.inl h)

/-- A true condition, and a bad source or destination (R90). -/
theorem exec_moveIf_bad_move {rd rs1 : Byte} {c : Fin Config.numRegs} (hc : s.reg c ≠ 0)
    (h : 15 < rs1.toNat ∨ 15 < rd.toNat) :
    exec (.moveIf rd rs1 (regField c)) s = .next (raise .registerOverflow s) := by
  rw [exec, execMoveIf, readField_valid, check_ok, if_pos (nonZero_eq_true hc)]
  exact check_readField_overflow (h.imp_right fun hd v => check_writeField_overflow v hd)

/-- A bad destination (R91). -/
theorem exec_loadimm_bad_field {rd : Byte} (lo hi : Byte) (h : 15 < rd.toNat) :
    exec (.loadimm rd lo hi) s = .next (raise .registerOverflow s) :=
  check_writeField_overflow _ h

/-- A bad operand or destination (R92). -/
theorem exec_sub_bad_field {rd rs1 rs2 : Byte} (h : 15 < rs1.toNat ∨ 15 < rs2.toNat ∨ 15 < rd.toNat) :
    exec (.sub rd rs1 rs2) s = .next (raise .registerOverflow s) :=
  check_readField_overflow <| h.imp_right fun h _ =>
    check_readField_overflow <| h.imp_right fun hd _ => check_writeField_overflow _ hd

/-- The three states a register operation can leave: nothing done, a raise, or the register `rd` names written. -/
theorem Effect.registerOp_cases {i : Instr} {rd x y : Byte} (h : Effect i s t)
    (hop : i = .moveIf rd x y ∨ i = .loadimm rd x y ∨ i = .sub rd x y) :
    t = s ∨ t = raise .registerOverflow s ∨ ∃ r v, rd = regField r ∧ t = s.setReg r v := by
  cases h
  case same => exact .inl rfl
  case badField => exact .inr (.inl rfl)
  case wrote r v hi =>
    have hrd : rd = regField r := by rcases hop with rfl | rfl | rfl <;> simpa using hi
    exact .inr (.inr ⟨r, v, hrd, rfl⟩)
  -- a word access, an offer and a halt belong to other instructions
  all_goals rcases hop with rfl | rfl | rfl <;> simp_all [Instr.opcode]

end Sys2Proof.Machine
end

section
/-! The statements of the register operations (spec/40). -/

namespace Sys2Proof.Machine

/-- Settles O29: a true and a false condition, then the two places a bad field ends it. -/
theorem moveIfMovesWhenNonZero : Obligations.MoveIfMovesWhenNonZero :=
  ⟨fun rd _ _ s hc => ⟨_, exec_moveIf_of_ne hc, reg_setReg_same s rd _, rfl⟩,
    fun rd rs1 _ _ hc => exec_moveIf_of_eq_zero rd rs1 hc,
    fun rd rs1 _ _ h => exec_moveIf_bad_condition rd rs1 h,
    fun _ _ _ _ hc h => exec_moveIf_bad_move hc h⟩

/-- Settles O30: the value written is `immediate`, whose number is `immediate_toNat`. -/
theorem loadimmWritesSignExtended : Obligations.LoadimmWritesSignExtended := by
  refine ⟨fun rd lo hi s => ⟨_, exec_loadimm lo hi, ?_, ?_⟩, fun _ lo hi _ h => exec_loadimm_bad_field lo hi h,
    fun _ _ _ => rfl⟩
  · rw [reg_setReg_same]
  · rw [reg_setReg_same]
    exact immediate_toNat lo hi

/-- Settles O31: the value written is `subtract`, whose number is `subtract_toNat`. -/
theorem subWritesWrappedDifference : Obligations.SubWritesWrappedDifference := by
  refine ⟨fun rd rs1 rs2 s => ⟨_, exec_sub, ?_, ?_⟩, fun _ _ _ _ h => exec_sub_bad_field h, fun _ _ _ => rfl⟩
  · rw [reg_setReg_same]
  · rw [reg_setReg_same]
    exact subtract_toNat _ _

/-- Settles O42: none of the three states of `Effect.registerOp_cases` differs in more than the frame allows. -/
theorem registerOperationsFrame : Obligations.RegisterOperationsFrame := by
  rintro i rd s t h ⟨x, y, hop⟩
  rcases (exec_cases h).registerOp_cases hop with rfl | rfl | ⟨r, v, rfl, rfl⟩
  · exact ⟨fun _ _ => rfl, fun _ _ => rfl, ⟨rfl, rfl⟩, .inl rfl⟩
  · exact ⟨fun _ _ => rfl, fun _ _ => rfl, ⟨rfl, rfl⟩, .inr rfl⟩
  · refine ⟨fun q hq => reg_setReg_other s v ?_, fun _ _ => rfl, ⟨rfl, rfl⟩, .inl rfl⟩
    rintro rfl
    simp at hq

end Sys2Proof.Machine
end

section
/-! SUPPORT. The memory operations (R100, R101): how a bad field or a bad address ends them, and the states they can leave. -/

namespace Sys2Proof.Machine

variable {s t : State} {rs1 rs2 : Byte} {r q : Fin Config.numRegs}

theorem storeWord_reg {a v : Word} (h : storeWord a v s = .ok t) : t.reg r = s.reg r := by
  obtain ⟨-, rfl⟩ := storeWord_eq_ok h
  rfl

/-! `store` -/

/-- A bad address (R100). -/
theorem exec_store_bad_address (h : 4092 < (s.reg r).toNat) :
    exec (.store (regField r) (regField q)) s = .next (raise .memoryOverflow s) := by
  rw [exec, execStore, readAddress_valid, check_ok, readField_valid, check_ok, storeWord_outside (by omega), check_error]

/-- A bad field, whatever the address (R100, D8). -/
theorem exec_store_bad_field (h : 15 < rs1.toNat ∨ 15 < rs2.toNat) :
    exec (.store rs1 rs2) s = .next (raise .registerOverflow s) :=
  check_readField_overflow <| h.imp_right fun h2 _ => check_readField_overflow (.inl h2)

/-- The states a `store` can leave: a raise of one of two kinds, or a word written at the value of the address register. -/
theorem exec_store_cases (h : exec (.store rs1 rs2) s = .next t) :
    (∃ e, (e = .registerOverflow ∨ e = .memoryOverflow) ∧ t = raise e s) ∨
      ∃ a v, readAddress rs1 s = .ok a ∧ storeWord a v s = .ok t := by
  cases exec_cases h
  case badField => exact .inl ⟨_, .inl rfl, rfl⟩
  case badAddress => exact .inl ⟨_, .inr rfl, rfl⟩
  case stored r q hi ha =>
    cases hi
    exact .inr ⟨_, _, readAddress_valid r, storeWord_inRange ha⟩
  -- the other effects belong to other instructions
  all_goals simp_all [Instr.opcode]

/-! `load` -/

/-- A bad address field (R101). -/
theorem exec_load_bad_address_field (rs1 : Byte) (h : 15 < rs2.toNat) :
    exec (.load rs1 rs2) s = .next (raise .registerOverflow s) :=
  check_readField_overflow (.inl h)

/-- A bad address, whatever the destination field (R101, D8). -/
theorem exec_load_bad_address (rs1 : Byte) (h : 4092 < (s.reg q).toNat) :
    exec (.load rs1 (regField q)) s = .next (raise .memoryOverflow s) := by
  rw [exec, execLoad, readAddress_valid, check_ok, loadWord_outside (by omega), check_error]

/-- A bad destination field, where the word is there (R101). -/
theorem exec_load_bad_destination (ha : (s.reg q).toNat ≤ 4092) (h : 15 < rs1.toNat) :
    exec (.load rs1 (regField q)) s = .next (raise .registerOverflow s) := by
  rw [exec, execLoad, readAddress_valid, check_ok, loadWord_inRange (by omega), check_ok, check_writeField_overflow _ h]

/-- The states a `load` can leave: a raise of one of two kinds, or the register `rs1` names written. -/
theorem exec_load_cases (h : exec (.load rs1 rs2) s = .next t) :
    (∃ e, (e = .registerOverflow ∨ e = .memoryOverflow) ∧ t = raise e s) ∨
      ∃ r v, rs1 = regField r ∧ t = s.setReg r v := by
  cases exec_cases h
  case badField => exact .inl ⟨_, .inl rfl, rfl⟩
  case badAddress => exact .inl ⟨_, .inr rfl, rfl⟩
  case wrote r v hi =>
    have hrs1 : rs1 = regField r := by simpa using hi
    exact .inr ⟨r, v, hrs1, rfl⟩
  -- the other effects belong to other instructions
  all_goals simp_all [Instr.opcode]

end Sys2Proof.Machine
end

section
/-! The statements of the memory operations (spec/41). -/

namespace Sys2Proof.Machine

/-- Settles O32: the word stored is read back byte by byte (`storeWord_byte_add`, `storeWord_byte_other`). -/
theorem storeWritesWord : Obligations.StoreWritesWord := by
  refine ⟨fun rs1 rs2 s hw ha => ?_, fun _ _ _ h => exec_store_bad_address h, fun _ _ _ h => exec_store_bad_field h⟩
  have ha' : (s.reg rs1).toNat + 3 < 4096 := by omega
  have hstore := storeWord_inRange (s := s) (v := s.reg rs2) ha'
  refine ⟨_, exec_store ha', rfl, fun k hk => ?_, fun _ hb => storeWord_byte_other hw hstore hb⟩
  rw [storeWord_byte_add hw hstore hk, wordByte_toNat]

/-- Settles O33: the word written is `wordOfBytes`, whose number is `wordOfBytes_toNat`. -/
theorem loadReadsWord : Obligations.LoadReadsWord := by
  refine ⟨fun rs1 rs2 s ha => ⟨_, exec_load (loadWord_inRange (by omega)), ?_, ?_⟩,
    fun rs1 _ _ h => exec_load_bad_address_field rs1 h, fun rs1 _ _ h => exec_load_bad_address rs1 h,
    fun _ _ _ ha h => exec_load_bad_destination ha h⟩
  · rw [reg_setReg_same]
  · rw [reg_setReg_same]
    exact wordOfBytes_toNat _ _ _ _

/-- Settles O43: no state of `exec_load_cases` differs in more than the frame allows. -/
theorem loadFrame : Obligations.LoadFrame := by
  intro rs1 rs2 s t h
  rcases exec_load_cases h with ⟨e, he, rfl⟩ | ⟨r, v, rfl, rfl⟩
  · exact ⟨fun _ _ => rfl, fun _ _ => rfl, ⟨rfl, rfl⟩, .inr (he.imp (congrArg _) (congrArg _))⟩
  · refine ⟨fun q hq => reg_setReg_other s v ?_, fun _ _ => rfl, ⟨rfl, rfl⟩, .inl rfl⟩
    rintro rfl
    simp at hq

/-- Settles O44: a raise leaves everything but the run state, and a store that answers writes its four bytes
(`storeWord_byte_other`). -/
theorem storeFrame : Obligations.StoreFrame := by
  intro rs1 rs2 s t hw h
  rcases exec_store_cases h with ⟨e, he, rfl⟩ | ⟨a, v, ha, hstore⟩
  · exact ⟨fun _ _ => rfl, ⟨rfl, rfl⟩, fun _ _ _ _ => rfl,
      .inr ⟨fun _ _ => rfl, he.imp (congrArg _) (congrArg _)⟩⟩
  · obtain ⟨-, hrun, hout, hsink⟩ := storeWord_frame hstore
    refine ⟨fun _ _ => storeWord_reg hstore, ⟨hout, hsink⟩, fun a' ha' b hb => ?_, .inl hrun⟩
    obtain rfl : a = a' := Except.ok.inj (ha.symm.trans ha')
    exact storeWord_byte_other hw hstore (by omega)

end Sys2Proof.Machine
end

section
/-! SUPPORT. The decimal text of a number, code by code: it reads back as the number, and its first digit is 0 only for
zero (R111, D12). -/

namespace Sys2Proof.Machine

variable {n : Nat} {z : Int}

/-- A digit at the head of a text that is read. -/
theorem readDigits_cons_digit {d : Nat} (hd : d < 10) (n : Nat) (cs : List Byte) :
    readDigits n (digitCode d :: cs) = readDigits (10 * n + d) cs := by
  rw [readDigits, digitCode_toNat hd, if_pos (by omega), Nat.add_sub_cancel_left]

/-- A digit at the end of a text that is read. -/
theorem readDigits_append_digit {d : Nat} (hd : d < 10) (n : Nat) (cs : List Byte) :
    readDigits n (cs ++ [digitCode d]) = (readDigits n cs).map fun k => 10 * k + d := by
  induction cs generalizing n with
  | nil =>
    rw [List.nil_append, readDigits_cons_digit hd]
    rfl
  | cons c cs ih =>
    rw [List.cons_append, readDigits, readDigits, ih]
    split <;> rfl

/-- The digits of a number read back as it. -/
theorem readDigits_digits (n : Nat) : readDigits 0 (digits n) = some n := by
  induction n using Nat.strong_induction_on with
  | _ n ih =>
    by_cases h : n < 10
    · rw [digits_small h, readDigits_cons_digit h, Nat.mul_zero, Nat.zero_add, readDigits]
    · rw [digits_large (Nat.le_of_not_lt h), readDigits_append_digit (Nat.mod_lt n (by decide)),
        ih (n / 10) (by omega), Option.map_some, Nat.div_add_mod]

/-- The first digit of a number is 0 only for zero. -/
theorem digits_eq_cons (n : Nat) : ∃ d rest, digits n = digitCode d :: rest ∧ d < 10 ∧ (d = 0 → n = 0) := by
  induction n using Nat.strong_induction_on with
  | _ n ih =>
    by_cases h : n < 10
    · exact ⟨n, [], digits_small h, h, id⟩
    · obtain ⟨d, rest, hd, hlt, hz⟩ := ih (n / 10) (by omega)
      exact ⟨d, rest ++ [digitCode (n % 10)], by rw [digits_large (Nat.le_of_not_lt h), hd, List.cons_append], hlt,
        fun h0 => by have := hz h0; omega⟩

theorem digits_head?_eq_zero (h : (digits n).head? = some 0x30) : n = 0 := by
  obtain ⟨d, rest, hd, hlt, hz⟩ := digits_eq_cons n
  rw [hd] at h
  have hcode : 0x30 + d = 0x30 := by
    rw [← digitCode_toNat hlt, Option.some.inj h]
    rfl
  exact hz (by omega)

theorem dec_of_nonneg (h : 0 ≤ z) : dec z = digits z.natAbs := if_neg (Int.not_lt.2 h)

theorem dec_of_neg (h : z < 0) : dec z = 0x2D :: digits z.natAbs := if_pos h

/-- A text that begins with a digit is read without a sign. -/
theorem readDecimal_digits (n : Nat) : readDecimal (digits n) = some (n : Int) := by
  obtain ⟨d, rest, hd, hlt, -⟩ := digits_eq_cons n
  have hsign : digitCode d ≠ 0x2D := by
    intro h
    have hcode : 0x30 + d = 0x2D := by
      rw [← digitCode_toNat hlt, h]
      rfl
    omega
  rw [hd, readDecimal, if_neg hsign, ← hd, readDigits_digits]
  rfl

/-- A minus sign before digits negates. -/
theorem readDecimal_neg_digits (n : Nat) : readDecimal (0x2D :: digits n) = some (-(n : Int)) := by
  have hne : digits n ≠ [] := List.length_pos_iff.1 (digits_length_pos n)
  rw [readDecimal, if_pos rfl, if_neg hne, readDigits_digits]
  rfl

/-- The decimal text of an integer reads back as it (R111). -/
theorem readDecimal_dec (z : Int) : readDecimal (dec z) = some z := by
  rcases lt_or_ge z 0 with h | h
  · rw [dec_of_neg h, readDecimal_neg_digits, Int.ofNat_natAbs_of_nonpos (Int.le_of_lt h), Int.neg_neg]
  · rw [dec_of_nonneg h, readDecimal_digits, Int.natAbs_of_nonneg h]

end Sys2Proof.Machine
end

section
/-! SUPPORT. Output and control (R110 to R112): how a bad field ends an output, the states one can leave, and a run that
halts at its first step. -/

namespace Sys2Proof.Machine

variable {s t : State} {rs1 : Byte}

theorem lowCode_toNat (v : Word) : (lowCode v).toNat = v.toNat % 2 ^ 8 := BitVec.toNat_setWidth 8 v

/-- A bad field: the sink is not called (R110). -/
theorem exec_out_bad_field (h : 15 < rs1.toNat) : exec (.out rs1) s = .next (raise .registerOverflow s) :=
  check_readField_overflow (.inl h)

/-- A bad field: the sink is not called (R111). -/
theorem exec_outNumber_bad_field (h : 15 < rs1.toNat) :
    exec (.outNumber rs1) s = .next (raise .registerOverflow s) :=
  check_readField_overflow (.inl h)

/-- The states an output instruction can leave: a raise before any offer, or one offer of at most 11 codes. -/
theorem Effect.output_cases {i : Instr} (h : Effect i s t) (hi : i = .out rs1 ∨ i = .outNumber rs1) :
    t = raise .registerOverflow s ∨ ∃ codes, codes.length ≤ 11 ∧ t = emit codes s := by
  cases h
  case badField => exact .inl rfl
  case offered r codes _ hc => exact .inr ⟨codes, hc.2, rfl⟩
  -- the other effects belong to other instructions
  all_goals rcases hi with rfl | rfl <;> simp_all [Instr.opcode]

/-- A run whose next step halts ends there with success (R135). -/
theorem hostRun_of_halted (h : step s = .next t) (ht : t.run = .halted) (n : Nat) :
    hostRun (n + 1) s = (some (.ok ()), t) := by
  simp only [hostRun, h, result_of_halted ht]

end Sys2Proof.Machine
end

section
/-! The statements of output and control (spec/42). -/

namespace Sys2Proof.Machine

/-- Settles O35: the codes offered are `dec` of the signed register, which reads back as it (`readDecimal_dec`). -/
theorem outNumberAppendsDecimal : Obligations.OutNumberAppendsDecimal := by
  refine ⟨fun rs1 s hs => ?_, fun _ _ h => exec_outNumber_bad_field h⟩
  have hlen := dec_length (s.reg rs1)
  have hexec := exec_outNumber (s := s) (r := rs1)
  rw [emit_accept hs, signed32_eq_toInt] at hexec
  rw [signed32_eq_toInt] at hlen
  exact ⟨_, _, hexec, rfl, rfl, readDecimal_dec _, hlen⟩

/-- Settles O38: a text without a sign is the digits, whose first is 0 only for zero; with a sign they follow it. -/
theorem decimalTextIsShortestSigned : Obligations.DecimalTextIsShortestSigned := by
  refine ⟨rfl, fun n => ⟨readDecimal_dec n, fun hn h => ?_, fun hn => ?_⟩⟩
  · rw [dec_of_nonneg hn] at h
    exact Int.natAbs_eq_zero.1 (digits_head?_eq_zero h)
  · rw [dec_of_neg hn]
    refine ⟨rfl, fun h => ?_⟩
    rw [List.getElem?_cons_succ, ← List.head?_eq_getElem?] at h
    have := digits_head?_eq_zero h
    omega

/-- Settles O45: neither state of `Effect.output_cases` differs in more than the frame allows (`emit_effect`). -/
theorem outputFrame : Obligations.OutputFrame := by
  intro rs1 i s t hi h
  rcases (exec_cases h).output_cases hi with rfl | ⟨codes, hlen, rfl⟩
  · exact ⟨fun _ _ => rfl, fun _ _ => rfl, ⟨[], (List.append_nil _).symm, Nat.zero_le _⟩,
      .inr (.inl ⟨rfl, rfl, rfl⟩)⟩
  · obtain ⟨⟨taken, hout, htaken⟩, hrun⟩ := emit_effect codes s
    exact ⟨fun r _ => emit_reg s r codes, fun a _ => emit_byte s codes a, ⟨taken, hout, htaken.trans hlen⟩,
      hrun.imp_right .inr⟩

/-- Settles O34: the one code offered is `lowCode` of the register, whose number is `lowCode_toNat`. -/
theorem outAppendsLowByte : Obligations.OutAppendsLowByte :=
  ⟨fun _ _ hs => ⟨_, _, exec_out.trans (congrArg _ (emit_accept hs)), rfl, lowCode_toNat _⟩,
    fun _ _ h => exec_out_bad_field h⟩

/-- Settles O37: `step_exit`, whose state is halted; outside memory the fetch raises first (`fetch_outside`). -/
theorem exitHalts : Obligations.ExitHalts := by
  refine ⟨fun _ => rfl, fun s hr h => ?_, fun s hr hip => ?_, rfl⟩
  · have hip : s.ip.toNat < 4096 := h.1
    exact ⟨step_exit hr h, ip_succ_toNat hip, hostRun_of_halted (step_exit hr h) rfl⟩
  · exact ⟨_, step_of_raised hr (fetch_outside hip), rfl⟩

end Sys2Proof.Machine
end

section
/-! SUPPORT. What a step can do (R72, R128), said once: `step_eq_next`; and what follows for the run state and the output
log: where a handler faults and with which kind (R121 to R124), and which step reaches the log (R137, R138). -/

namespace Sys2Proof.Machine

variable {s t : State} {i : Instr}

/-- Every step answers a state (R126). -/
theorem step_answers (s : State) : ∃ t, step s = .next t := by
  rcases step_cases s with ⟨-, e⟩ | ⟨-, t, -, e⟩ | ⟨-, i, u, -, e⟩
  · exact ⟨s, e⟩
  · exact ⟨t, e⟩
  · obtain ⟨t, ht, -⟩ := exec_effect i u
    exact ⟨t, e.trans ht⟩

/-- The inversion of `step`: a terminal state is left as it is, and a running machine's fetch raises or finds an
instruction at IP, whose handler has one of its effects after the IP advance. -/
theorem step_eq_next (h : step s = .next t) :
    (s.run ≠ .running ∧ t = s) ∨ (s.run = .running ∧ fetch s = .raised t) ∨
      (s.run = .running ∧ ∃ i, s.AtIp (encode i) ∧ Effect i (s.setIp (s.ip + BitVec.ofNat 32 i.length)) t) := by
  rcases step_cases s with ⟨hr, e⟩ | ⟨hr, u, hf, e⟩ | ⟨hr, i, u, hf, e⟩ <;> rw [e] at h
  · exact .inl ⟨hr, (Host.Outcome.next.inj h).symm⟩
  · exact .inr (.inl ⟨hr, Host.Outcome.next.inj h ▸ hf⟩)
  · obtain ⟨hat, rfl⟩ := fetch_eq_instr hf
    exact .inr (.inr ⟨hr, i, hat, exec_cases h⟩)

/-- The IP advance of an instruction that stands at IP ends between 1 and 4096 (R77). -/
theorem advance_range (h : s.AtIp (encode i)) : 1 ≤ (s.ip + BitVec.ofNat 32 i.length).toNat ∧
    (s.ip + BitVec.ofNat 32 i.length).toNat ≤ 4096 := by
  obtain ⟨hl, -⟩ := h
  rw [encode_length] at hl
  rw [advance_toNat hl]
  have := instr_length_pos i
  omega

/-- A raise of the fetch leaves IP between 1 and 4096 (R73 to R75). -/
theorem fetch_raised_ip_range (h : fetch s = .raised t) : 1 ≤ t.ip.toNat ∧ t.ip.toNat ≤ 4096 := by
  rcases fetch_cases s with ⟨-, e⟩ | ⟨hl, -, e⟩ | ⟨-, -, e⟩ | ⟨_, _, _, _, _, e⟩ <;> rw [e] at h <;> cases h
  · rw [pinFault, raise_ip, ip_setIp]
    decide
  · rw [raise_ip, ip_setIp, ip_succ_toNat hl]
    omega
  · rw [pinFault, raise_ip, ip_setIp]
    decide

/-! Faults -/

/-- A fetch that pins IP latches: the next step finds a terminal state (R127, R128). -/
theorem step_twice_of_pinFault (hr : s.run = .running) (hf : fetch s = .raised (pinFault s)) :
    ∃ t u, step s = .next t ∧ t.ip = 4096 ∧ t.result = .err .memoryOverflow ∧
      step t = .next u ∧ u.ip = 4096 ∧ u.result = .err .memoryOverflow := by
  have hip : (pinFault s).ip = 4096 := ip_setIp s 4096
  have hres : (pinFault s).result = .err .memoryOverflow := result_of_faulted rfl
  exact ⟨pinFault s, pinFault s, step_of_raised hr hf, hip, hres,
    step_of_not_running (by simp [pinFault]), hip, hres⟩

/-- A byte of the opcode map is not illegal (R67, R68). -/
theorem not_illegalByte {b : Byte} {o : Opcode} (h : Opcode.ofByte? b = some o) : ¬ illegalByte b := fun hb =>
  Option.some_ne_none o (h.symm.trans (ofByte?_eq_none.2 hb))

theorem emit_run_of_reject {codes : List Byte} (h : s.sink.next ≠ .accept) :
    (emit codes s).run = .faulted .outputError := by
  rcases hk : s.sink.next with _ | kept
  · exact absurd hk h
  · rw [emit_reject hk, raise_run]

/-- An output instruction whose field names a register makes one offer (R110, R111). -/
theorem exec_output {r : Fin Config.numRegs} (hi : i = .out (regField r) ∨ i = .outNumber (regField r)) :
    ∃ codes, exec i s = .next (emit codes s) := by
  rcases hi with rfl | rfl
  · exact ⟨_, exec_out⟩
  · exact ⟨_, exec_outNumber⟩

/-- The kinds a handler can fault with, each with its cause (R121, R122, R124); `InstructionError` is not among them. -/
theorem Effect.faulted_cases {e : ErrorKind} (h : Effect i s t) (hrun : t.run = .faulted e) :
    s.run = .faulted e ∨ (e = .memoryOverflow ∧ (i.opcode = .store ∨ i.opcode = .load)) ∨
      (e = .registerOverflow ∧ i.fieldsValid = false) ∨
      (e = .outputError ∧ (∃ r, i = .out (regField r) ∨ i = .outNumber (regField r)) ∧ s.sink.next ≠ .accept) := by
  cases h with
  | same | wrote | stored => exact .inl hrun
  | badField hi => exact .inr (.inr (.inl ⟨(RunState.faulted.inj hrun).symm, hi⟩))
  | badAddress hi => exact .inr (.inl ⟨(RunState.faulted.inj hrun).symm, hi⟩)
  | offered r codes hi =>
    by_cases hk : s.sink.next = .accept
    · rw [emit_accept hk] at hrun
      exact .inl hrun
    · rw [emit_run_of_reject hk] at hrun
      exact .inr (.inr (.inr ⟨(RunState.faulted.inj hrun).symm, ⟨r, hi⟩, hk⟩))
  | halted => cases hrun

/-! The output log -/

/-- The only effect that changes the log is an offer, of at most 11 codes. -/
theorem Effect.offered_of_out_ne (h : Effect i s t) (hne : t.out ≠ s.out) :
    (∃ r, i = .out (regField r) ∨ i = .outNumber (regField r)) ∧
      ∃ codes, t.out = s.out ++ codes ∧ codes.length ≤ 11 := by
  cases h with
  | offered r codes hi hc =>
    obtain ⟨⟨taken, hout, hlen⟩, -⟩ := emit_effect codes s
    exact ⟨⟨r, hi⟩, taken, hout, hlen.trans hc.2⟩
  | _ => exact absurd rfl hne

/-- A step that changes the log runs an output instruction that stands at IP. -/
theorem step_out_ne (h : step s = .next t) (hne : t.out ≠ s.out) :
    s.run = .running ∧ (∃ b r, (b = 0x06 ∨ b = 0x08) ∧ s.AtIp [b, regField r]) ∧
      ∃ codes, t.out = s.out ++ codes ∧ codes.length ≤ 11 := by
  rcases step_eq_next h with ⟨-, rfl⟩ | ⟨-, hf⟩ | ⟨hr, i, hat, heff⟩
  · exact absurd rfl hne
  · obtain ⟨hout, -, -⟩ := fetch_raised_fields hf
    exact absurd hout hne
  · obtain ⟨⟨r, rfl | rfl⟩, hcodes⟩ := heff.offered_of_out_ne hne
    · exact ⟨hr, ⟨_, r, .inl rfl, hat⟩, hcodes⟩
    · exact ⟨hr, ⟨_, r, .inr rfl, hat⟩, hcodes⟩

/-- A step commutes with a change of the port where the handler it runs does. -/
theorem step_mapPort_of_exec {g : List Byte → List Byte} {k : Sink → Sink}
    (h : ∀ i u, fetch s = .instr i u → exec i (u.mapPort g k) = mapNext (State.mapPort g k) (exec i u)) :
    step (s.mapPort g k) = mapNext (State.mapPort g k) (step s) := by
  rcases step_cases s with ⟨hr, e⟩ | ⟨hr, u, hf, e⟩ | ⟨hr, i, u, hf, e⟩ <;> rw [e]
  · exact step_of_not_running (s := s.mapPort g k) hr
  · exact step_of_raised (s := s.mapPort g k) hr (by rw [fetch_mapPort, hf]; rfl)
  · have hf' : fetch (s.mapPort g k) = .instr i (u.mapPort g k) := by rw [fetch_mapPort, hf]; rfl
    rw [step_of_instr (s := s.mapPort g k) hr hf', h i u hf]

end Sys2Proof.Machine
end

section
/-! SUPPORT. The host's run, one step at a time beside the machine's (R135), and what a register write that answers has
done (R22, R23). -/

namespace Sys2Proof.Machine

variable {s t : State}

theorem core_run_succ (h : step s = .next t) (k : Nat) : Sys2Proof.core.run (k + 1) s = Sys2Proof.core.run k t := by
  have hstep : Sys2Proof.core.step s = .next t := h
  simp only [Host.Core.run, hstep]

/-- A run whose next state is running goes on from there. -/
theorem hostRun_of_running (h : step s = .next t) (ht : t.run = .running) (n : Nat) :
    hostRun (n + 1) s = hostRun n t := by
  simp only [hostRun, h, result_of_running ht]

/-- A run whose next step faults ends there with the error. -/
theorem hostRun_of_faulted {e : ErrorKind} (h : step s = .next t) (ht : t.run = .faulted e) (n : Nat) :
    hostRun (n + 1) s = (some (.error e), t) := by
  simp only [hostRun, h, result_of_faulted ht]

theorem regWrite_eq_ok {i : Nat} {v : Word} (h : regWrite i v s = .ok t) : ∃ r, t = s.setReg r v := by
  by_cases hi : i < Config.numRegs
  · rw [regWrite_valid ⟨i, hi⟩ v] at h
    exact ⟨_, (Except.ok.inj h).symm⟩
  · rw [regWrite_invalid v (Nat.lt_of_not_le fun h => hi (Nat.lt_succ_of_le h))] at h
    cases h

end Sys2Proof.Machine
end

section
/-! The statements of exceptions and the host (spec/60). -/

namespace Sys2Proof.Machine

/-- Settles O47: of the three ways of `step_eq_next`, a raise of the fetch leaves IP in range, and a handler that ends the
machine leaves IP as the advance set it (`Effect.ip_of_run_ne`). -/
theorem stepKeepsInvariant : Obligations.StepKeepsInvariant := by
  rintro s t ⟨hw, hinv⟩ h
  rcases step_eq_next h with ⟨-, rfl⟩ | ⟨-, hf⟩ | ⟨hr, i, hat, heff⟩
  · exact ⟨hw, hinv⟩
  · obtain ⟨-, hmem, -⟩ := fetch_raised_fields hf
    exact ⟨hmem ▸ hw, fun _ => fetch_raised_ip_range hf⟩
  · refine ⟨heff.mem_wf hw, fun hne => ?_⟩
    rw [heff.ip_of_run_ne fun hrun => hne (hrun.trans hr), ip_setIp]
    exact advance_range hat

/-- Settles O25: both fetches pin IP, and the next step finds a terminal state (`step_twice_of_pinFault`). -/
theorem fetchFaultLatches : Obligations.FetchFaultLatches := by
  refine fun s hr => ⟨fun o hd => step_twice_of_pinFault hr ?_, fun hip => step_twice_of_pinFault hr ?_⟩
  · rw [fetch, hd]
    rfl
  · exact fetch_outside (by rw [hip]; decide)

/-- Settles O28: `step_answers`. -/
theorem stepAlwaysAnswersAState : Obligations.StepAlwaysAnswersAState := step_answers

/-- Settles O50: a step that changes the log runs an output instruction at IP (`step_out_ne`). -/
theorem outputOnlyGrows : Obligations.OutputOnlyGrows := by
  intro s t h
  by_cases hout : t.out = s.out
  · exact ⟨⟨[], hout.trans (List.append_nil _).symm, Nat.zero_le _⟩, absurd hout⟩
  · obtain ⟨hr, ⟨b, r, hb, hat⟩, hcodes⟩ := step_out_ne h hout
    have hbyte : s.byte s.ip.toNat = b := byte_of_atIp (k := 0) hat rfl
    obtain ⟨hl, -⟩ := hat
    exact ⟨hcodes, fun _ => ⟨hr, Nat.lt_of_succ_lt hl, hbyte ▸ hb⟩⟩

/-- Settles O53: another sink is a change of the port, and without 6 or 8 at IP the handler makes no offer. -/
theorem sinkMattersOnlyToOutput : Obligations.SinkMattersOnlyToOutput := by
  intro s t k h h6 h8
  have hstep : step (s.mapPort id fun _ => k) = mapNext (State.mapPort id fun _ => k) (step s) := by
    refine step_mapPort_of_exec fun i u hf => exec_mapPort ?_
    obtain ⟨hat, -⟩ := fetch_eq_instr hf
    rintro ⟨r, rfl | rfl⟩
    · exact absurd (byte_of_atIp (k := 0) hat rfl) h6
    · exact absurd (byte_of_atIp (k := 0) hat rfl) h8
  rw [h] at hstep
  exact hstep

/-- Settles O55: the fetch raises it exactly for an illegal byte (`fetch_cases`), a handler never
(`Effect.faulted_cases`). -/
theorem instructionErrorIsDecodeOnly : Obligations.InstructionErrorIsDecodeOnly := by
  have handler : ∀ {i : Instr} {s t : State}, Effect i s t → t.run = .faulted .instructionError →
      s.run = .faulted .instructionError := fun heff hrun => by
    simpa using heff.faulted_cases hrun
  refine ⟨fun s hr hip => ?step, fun i s t h => handler (exec_cases h)⟩
  case step =>
    rcases fetch_cases s with ⟨ho, -⟩ | ⟨-, hn, hf⟩ | ⟨-, ⟨o, ho, -⟩, hf⟩ | ⟨i, _, ho, -, -, hf⟩
    · exact absurd hip (Nat.not_lt.2 ho)
    · exact ⟨_, step_of_raised hr hf, iff_of_true rfl (ofByte?_eq_none.1 hn)⟩
    · exact ⟨_, step_of_raised hr hf, iff_of_false (by simp [pinFault]) (not_illegalByte ho)⟩
    · obtain ⟨t, ht, heff⟩ := exec_effect i (advanceIp i s)
      refine ⟨t, (step_of_instr hr hf).trans ht, iff_of_false (fun hrun => ?_) (not_illegalByte ho)⟩
      have hs := handler heff hrun
      cases hr.symm.trans hs

/-- Settles O56: `Effect.faulted_cases` one way, the offer that is rejected the other; the fetch raises two other kinds. -/
theorem outputErrorIsSinkRejection : Obligations.OutputErrorIsSinkRejection := by
  refine ⟨fun i s hr => ?handler, fun s t hf => ?fetch⟩
  case handler =>
    obtain ⟨t, ht, heff⟩ := exec_effect i s
    refine ⟨t, ht, fun hrun => ?_, fun ⟨⟨r, hi⟩, hk⟩ => ?_⟩
    · simpa [hr] using heff.faulted_cases hrun
    · obtain ⟨codes, hoffer⟩ := exec_output (s := s) hi
      obtain rfl := Host.Outcome.next.inj (ht.symm.trans hoffer)
      exact emit_run_of_reject hk
  case fetch =>
    obtain ⟨v, e, he, rfl, -⟩ := fetch_eq_raised hf
    rcases he with ⟨rfl, -⟩ | ⟨rfl, -⟩ <;> simp

/-- Settles O57: the one cause of `RegisterOverflow` in `Effect.faulted_cases`. -/
theorem registerOverflowNeedsBadField : Obligations.RegisterOverflowNeedsBadField := by
  intro i s t hr h hrun
  simpa [hr] using (exec_cases h).faulted_cases hrun

/-- Settles O58, by induction on the fuel: a run goes on exactly while the next state is running. -/
theorem runStopsAtFirstTerminal : Obligations.RunStopsAtFirstTerminal := by
  intro fuel
  induction fuel with
  | zero =>
    intro s t answer h
    cases h
  | succ n ih =>
    intro s t answer h
    obtain ⟨u, hu⟩ := step_answers s
    have hone : Sys2Proof.core.run 1 s = .next u := core_run_succ hu 0
    rcases hru : u.run with _ | _ | e
    · rw [hostRun_of_running hu hru] at h
      obtain ⟨k, hk, hkn, hrun, hbetween, hanswer⟩ := ih u t answer h
      refine ⟨k + 1, Nat.le_add_left 1 k, Nat.succ_le_succ hkn, (core_run_succ hu k).trans hrun,
        fun j hj hjk => ?_, hanswer⟩
      rcases j with _ | _ | m
      · omega
      · exact ⟨u, hone, hru⟩
      · obtain ⟨w, hw, hwr⟩ := hbetween (m + 1) (Nat.le_add_left 1 m) (Nat.lt_of_succ_lt_succ hjk)
        exact ⟨w, (core_run_succ hu (m + 1)).trans hw, hwr⟩
    · rw [hostRun_of_halted hu hru] at h
      cases h
      exact ⟨1, le_rfl, Nat.le_add_left 1 n, hone, fun j hj hjk => by omega, .inl ⟨rfl, hru⟩⟩
    · rw [hostRun_of_faulted hu hru] at h
      cases h
      exact ⟨1, le_rfl, Nat.le_add_left 1 n, hone, fun j hj hjk => by omega, .inr ⟨e, rfl, hru⟩⟩

/-- Settles O17: the length and the elements of `State.bytes`. -/
theorem hostMemoryIsAllBytes : Obligations.HostMemoryIsAllBytes := by
  refine fun s => ⟨bytes_length s 0 _, fun a ha => ?_⟩
  rw [hostMemory, bytes_getElem?, if_pos ha, Nat.zero_add]

/-- Settles O26: `step_of_not_running`. -/
theorem terminalStatesAbsorb : Obligations.TerminalStatesAbsorb := fun _ => step_of_not_running

/-- Settles O36: the codes each of the two offers, and what a rejected offer leaves (`emit_reject`). -/
theorem rejectedWriteRaisesOutputError : Obligations.RejectedWriteRaisesOutputError := by
  intro rs1 kept s hk
  refine ⟨⟨_, exec_out, ?_⟩, ⟨_, exec_outNumber, ?_⟩⟩
  · rw [emit_reject hk, lowCode_eq_ofNat]
    exact ⟨rfl, rfl, rfl, rfl⟩
  · rw [emit_reject hk, signed32_eq_toInt]
    exact ⟨rfl, rfl, rfl, rfl⟩

/-- Settles O49: neither write touches RUN or OUT, and a terminal state absorbs the step. -/
theorem hostAccessKeepsRunState : Obligations.HostAccessKeepsRunState := by
  intro s t hw h
  obtain ⟨hmem, hrun, hout⟩ : t.mem.wf = true ∧ t.run = s.run ∧ t.out = s.out := by
    rcases h with ⟨i, v, h⟩ | ⟨a, v, h⟩
    · obtain ⟨r, rfl⟩ := regWrite_eq_ok h
      exact ⟨hw, rfl, rfl⟩
    · obtain ⟨-, hrun, hout, -⟩ := storeWord_frame h
      exact ⟨storeWord_wf hw h, hrun, hout⟩
  exact ⟨hmem, hrun, hout, fun hne => step_of_not_running (hrun ▸ hne)⟩

end Sys2Proof.Machine
end

section
/-! What memory holds once a machine is constructed (R140). -/

namespace Sys2Proof.Machine

/-- A constructed machine holds the image from address 0 on, and zero beyond it. -/
theorem construct_byte {image : List Byte} {s : State} (h : construct image = .ok s) (a : Nat) :
    s.byte a = (image[a]?).getD 0 := by
  obtain ⟨hl, hmem, -⟩ := construct_eq_ok h
  rw [State.byte, hmem, read_imageMemory hl]

end Sys2Proof.Machine
end

section
/-! The statements of reset and its hazards (spec/70). -/

namespace Sys2Proof.Machine

/-- Settles O10: the byte at address 0, where IP stands, is the image's first, or 0 for an empty image; the step is then
that of an illegal opcode (`illegalOpcodeAdvancesIpByOne`). -/
theorem imageWithoutOpcodeFaultsAtOnce : Obligations.ImageWithoutOpcodeFaultsAtOnce := by
  intro image s h hill
  obtain ⟨-, -, -, hip, hrun, -, -⟩ := construct_eq_ok h
  have hzero : s.ip.toNat = 0 := congrArg BitVec.toNat hip
  have hbyte : illegalByte (s.byte s.ip.toNat) := by rwa [hzero, construct_byte h]
  obtain ⟨hstep, -, -⟩ := illegalOpcodeAdvancesIpByOne s hrun (by omega) hbyte
  refine ⟨_, hstep, result_of_faulted rfl, ?_, fun r hr => ?_⟩
  · rw [ip_withRun, ip_setIp, hip]
    rfl
  · rw [reg_withRun, reg_setIp_other _ _ (List.ne_of_not_mem_cons hr)]

/-- Settles O7: the two answers of `construct` at their shared bound; the empty image fits, and every byte of its machine
lies beyond it. -/
theorem constructionRefusesExactlyLongImages : Obligations.ConstructionRefusesExactlyLongImages := by
  refine ⟨fun _ => construct_tooLong, fun _ hl => ⟨_, construct_fits hl⟩, ?_⟩
  have hempty := construct_fits (image := []) (Nat.zero_le 4096)
  exact ⟨_, hempty, construct_byte hempty⟩

/-- Settles O8: two of the parts `construct_eq_ok` names. -/
theorem executionStartsAtZero : Obligations.ExecutionStartsAtZero := by
  intro image s h
  obtain ⟨-, -, -, hip, hrun, -, -⟩ := construct_eq_ok h
  exact ⟨hip, hrun⟩

end Sys2Proof.Machine
end

section
/-! The model's reset state (log 5) and the frame of `exit` (spec/42). -/

namespace Sys2Proof.Machine

/-- Settles O9: the memory of the empty image is `reset`'s own, so `reset` is a constructed machine; its parts are those
`construct_eq_ok` and `construct_byte` name. -/
theorem resetIsTheEmptyImage : Obligations.ResetIsTheEmptyImage := by
  have hempty : construct [] = .ok State.reset := construct_fits (Nat.zero_le 4096)
  obtain ⟨-, -, hreg, -, hrun, hout, -⟩ := construct_eq_ok hempty
  exact ⟨hempty, hreg, construct_byte hempty, hrun, hout⟩

/-- Settles O46: the state `exit` leaves (`exitHalts`) differs in the run state alone. -/
theorem exitFrame : Obligations.ExitFrame := by
  intro s t h
  obtain ⟨hexec, -⟩ := exitHalts
  obtain rfl := Host.Outcome.next.inj ((hexec s).symm.trans h)
  exact ⟨fun r _ => reg_withRun s r .halted, fun a _ => byte_withRun s .halted a, ⟨rfl, rfl⟩⟩

end Sys2Proof.Machine
end
